-- ==== Sys2Proof/Word.lean ====
section
/-! DEFINITION. The word types of FG-STS/RC: every width the spec fixes (00_scope.md R7, R8). All are unsigned. -/

namespace Sys2Proof

/-- One command word on the command port, and one value of the register read port (R70, R35). -/
abbrev Word := BitVec 32
/-- The opcode field `W[31:24]` (R72). -/
abbrev Opcode := BitVec 8
/-- The operand field `W[23:0]` (R72, R74). -/
abbrev Arg := BitVec 24
/-- One DAC code, `CODE_BITS = 12` (R7, R51). -/
abbrev Code := BitVec 12
/-- A cell as the table read port delivers it, `CELL_BITS = 16` (R7, R51). -/
abbrev PortCell := BitVec 16
/-- A table index, and the length register `TABLE_LEN` (R51, R26). -/
abbrev CellIndex := BitVec 12
/-- A timer reload value, `RELOAD_WIDTH = 32` (R7, R123). -/
abbrev Reload := BitVec 32
/-- An address of the register read port (R35). -/
abbrev RegAddr := BitVec 4
/-- One byte, for the platform's byte view of the table only (R55). -/
abbrev Byte := BitVec 8

end Sys2Proof
end

