-- ==== Sys2Proof/Config.lean ====
section
/-! DEFINITION. The constants of 00_scope.md R7 and the values an implementation fixes and the spec leaves open. -/

namespace Sys2Proof.Config

/-- `CODE_MAX` (R7): the largest DAC code. -/
abbrev codeMax : Nat := 4095
/-- `F_MIN` (R7). -/
abbrev fMin : Nat := 1
/-- `F_MAX` (R7). -/
abbrev fMax : Nat := 999000
/-- `PCT_MIN` (R7). -/
abbrev pctMin : Nat := 10
/-- `PCT_MAX` (R7). -/
abbrev pctMax : Nat := 90
/-- `PCT_STEP` (R7). -/
abbrev pctStep : Nat := 10
/-- `TABLE_CAP` (R7, R32): the number of cells of table memory. -/
abbrev tableCap : Nat := 4000

/-- The Timer-period table `reloadTable` (R123, D24): an open parameter, of which nothing is assumed but that it is a
function of the frequency and fixed for the whole run (R202). Log 6. -/
opaque reloadTable : Nat → Reload

/-- `TABLE_BASE` (R7, R58, D26): the opaque handle the platform gives the table. It carries no information. Log 7. -/
opaque tableBase : Nat

end Sys2Proof.Config
end

