-- ==== Sys2Proof/Syntax.lean ====
section
/-! DEFINITION. The commands (30_encoding.md R73) and the assembler's terms (R80, R81). -/

namespace Sys2Proof

/-- The nine commands, one constructor per row of the opcode table (R73). An operand is the whole 24-bit field `arg`
(R74); the other six commands have none (R75). -/
inductive Instr where
  | nop
  | setw (w : Arg)
  | setp (p : Arg)
  | setf (f : Arg)
  | applyf
  | synth
  | start
  | stop
  | clrst
deriving DecidableEq, Repr

/-- The mnemonics of R73, without operands: the rows of the opcode table. -/
inductive Mnemonic where
  | nop | setw | setp | setf | applyf | synth | start | stop | clrst
deriving DecidableEq, Repr

/-- The row a command belongs to. -/
def Instr.mnemonic : Instr → Mnemonic
  | .nop => .nop
  | .setw _ => .setw
  | .setp _ => .setp
  | .setf _ => .setf
  | .applyf => .applyf
  | .synth => .synth
  | .start => .start
  | .stop => .stop
  | .clrst => .clrst

/-- What one line of the assembler may say (R80, R81): a mnemonic with or without a number, or a pseudo-command. -/
inductive AsmTerm where
  /-- a mnemonic alone, as `START` -/
  | bare (m : Mnemonic)
  /-- a mnemonic and its operand, as `SETF 5001` -/
  | withOperand (m : Mnemonic) (n : Nat)
  /-- `SETW SINE` -/
  | setwSine
  /-- `SETW SQUARE` -/
  | setwSquare
  /-- `SETW RAMP` -/
  | setwRamp
  /-- `SETFK n`, which is `SETF (1000 * n)` -/
  | setfk (n : Nat)
deriving DecidableEq, Repr

end Sys2Proof
end

