-- ==== Sys2Proof/WellFormed.lean ====
section
/-! DEFINITION. Which terms are well formed. An `Instr` needs no check: its operand's type is the 24-bit field itself and
no bit of it is reserved (R74). The assembler's terms carry plain numbers, and these are checked. -/

namespace Sys2Proof

/-- The three commands that take an operand (R73, R74). -/
def Mnemonic.takesOperand : Mnemonic → Bool
  | .setw | .setp | .setf => true
  | .nop | .applyf | .synth | .start | .stop | .clrst => false

/-- R80: a mnemonic of R73 with one operand below `2^24` exactly for SETW, SETP and SETF. R81: `SETFK n` for
`0 <= n <= 16777`. -/
def AsmTerm.wellFormed : AsmTerm → Bool
  | .bare m => !m.takesOperand
  | .withOperand m n => m.takesOperand && decide (n < 2 ^ 24)
  | .setwSine | .setwSquare | .setwRamp => true
  | .setfk n => decide (n ≤ 16777)

end Sys2Proof
end

