-- ==== Sys2Proof/Decode.lean ====
section
/-! DEFINITION. Command words: the decoder, the encoder, the opcode table's match and mask rows (30_encoding.md). -/

namespace Sys2Proof

/-- Why a word is no legal command, in the order of R77's checks. The hardware does not tell the two apart: both set
`STATUS.ILL` (R171). -/
inductive IllegalWord where
  /-- the opcode is one of `0x09..0xFF` -/
  | reservedOpcode
  /-- the opcode takes no operand and `arg` is not zero -/
  | nonzeroArg
deriving DecidableEq, Repr

/-- `op = W[31:24]` (R72). -/
def opField (w : Word) : Opcode := w.extractLsb' 24 8

/-- `arg = W[23:0]` (R72). -/
def argField (w : Word) : Arg := w.extractLsb' 0 24

/-- A command without operand, legal only with `arg = 0` (R75). -/
def needZeroArg (arg : Arg) (i : Instr) : Except IllegalWord Instr :=
  if arg = 0 then .ok i else .error .nonzeroArg

/-- `decode(W)` (R76), with the checks in the order of R77. -/
def decode (w : Word) : Except IllegalWord Instr :=
  if opField w = 0x00 then needZeroArg (argField w) .nop
  else if opField w = 0x01 then .ok (.setw (argField w))
  else if opField w = 0x02 then .ok (.setp (argField w))
  else if opField w = 0x03 then .ok (.setf (argField w))
  else if opField w = 0x04 then needZeroArg (argField w) .applyf
  else if opField w = 0x05 then needZeroArg (argField w) .synth
  else if opField w = 0x06 then needZeroArg (argField w) .start
  else if opField w = 0x07 then needZeroArg (argField w) .stop
  else if opField w = 0x08 then needZeroArg (argField w) .clrst
  else .error .reservedOpcode

/-- The opcode numbers of R73. -/
def opcodeOf : Mnemonic → Opcode
  | .nop => 0x00
  | .setw => 0x01
  | .setp => 0x02
  | .setf => 0x03
  | .applyf => 0x04
  | .synth => 0x05
  | .start => 0x06
  | .stop => 0x07
  | .clrst => 0x08

/-- The operand field of a command: the operand, or zero (R74, R75). -/
def operandOf : Instr → Arg
  | .setw w => w
  | .setp p => p
  | .setf f => f
  | .nop | .applyf | .synth | .start | .stop | .clrst => 0

/-- The word of a command: `op` in the high byte, `arg` below it (R72, R80). -/
def encode (i : Instr) : Word := opcodeOf i.mnemonic ++ operandOf i

/-- One row of the opcode table: a word belongs to it exactly when `W AND mask = match` (R73). -/
structure OpcodeRow where
  mnemonic : Mnemonic
  matchBits : Word
  mask : Word
deriving DecidableEq, Repr

/-- R73's nine match and mask rows. -/
def opcodeRows : List OpcodeRow :=
  [ ⟨.nop, 0x00000000, 0xFFFFFFFF⟩,
    ⟨.setw, 0x01000000, 0xFF000000⟩,
    ⟨.setp, 0x02000000, 0xFF000000⟩,
    ⟨.setf, 0x03000000, 0xFF000000⟩,
    ⟨.applyf, 0x04000000, 0xFFFFFFFF⟩,
    ⟨.synth, 0x05000000, 0xFFFFFFFF⟩,
    ⟨.start, 0x06000000, 0xFFFFFFFF⟩,
    ⟨.stop, 0x07000000, 0xFFFFFFFF⟩,
    ⟨.clrst, 0x08000000, 0xFFFFFFFF⟩ ]

/-- Whether a word is a command of a row (R73). -/
def OpcodeRow.accepts (r : OpcodeRow) (w : Word) : Bool := (w &&& r.mask) == r.matchBits

/-- The decoder's answer for the opcode table's word `w` of `nbits` bits: a command word is one indivisible 32-bit
quantity (R55), so its bits are the table's bits. -/
def decodeTableWord (nbits w : Nat) : Option Instr :=
  match decode (BitVec.ofNat 32 (w % 2 ^ nbits)) with
  | .ok i => some i
  | .error _ => none

end Sys2Proof
end

