-- ==== Sys2Proof/Machine/State.lean ====
section
/-! DEFINITION. The state of the block (10_state.md), the reasons a step can stop, and the reset state (R37, R200). -/

namespace Sys2Proof.Machine

/-- An event on the sink interface (R58, R34). The `buffer` of FG's `start` is always the block's one table and carries
no information, so it is no argument. -/
inductive SinkEvent where
  /-- `Stop`: the sink ceases to read -/
  | stop
  /-- `Start(len, reload)`: the sink streams cells `0 .. len - 1`, one per expiry of a timer loaded with `reload` -/
  | start (len : CellIndex) (reload : Reload)
deriving DecidableEq, Repr

/-- One move of the outside world (R185, R186): what the host or the sink does at a port between two commands. -/
inductive PortInput where
  /-- the host presents a word on the command port (R71) -/
  | command (word : Word)
  /-- the host reads the register read port (R35) -/
  | readRegister (addr : RegAddr)
  /-- the host reads a cell through the table read port (R54) -/
  | hostReadCell (index : CellIndex)
  /-- the sink reads a cell through the table read port (R54, R59) -/
  | sinkReadCell (index : CellIndex)
  /-- the host asserts reset (R200) -/
  | reset
deriving DecidableEq, Repr

/-- The value a read delivers. -/
inductive Delivered where
  /-- 32 bits from the register read port (R35) -/
  | register (value : Word)
  /-- 16 bits from the table read port (R51) -/
  | cell (value : PortCell)
deriving DecidableEq, Repr

/-- One written cell of the table: its index and its code (R51). Log 5. -/
abbrev Cell := Nat × Code

/-- Table memory: the written cells, indices strictly rising. A cell that is not listed is unwritten (R52). Log 5. -/
abbrev Memory := List Cell

/-- The canonical form from index `lo` on: indices strictly rising, each a cell of the table space (R51). -/
def Memory.wfFrom (lo : Nat) : Memory → Bool
  | [] => true
  | (i, _) :: m => decide (lo ≤ i) && decide (i < Config.tableCap) && Memory.wfFrom (i + 1) m

/-- The canonical form of table memory. -/
def Memory.wf (m : Memory) : Bool := Memory.wfFrom 0 m

/-- The state of the block, "and nothing else" (R20), with the sink event trace (R34) and two fields of the model's own. -/
structure State where
  /-- `WAVE` (R21): 0 Sine, 1 Square, 2 Ramp -/
  wave : BitVec 2
  /-- `PERCENT` (R22) -/
  percent : BitVec 7
  /-- `FREQ` in whole Hz (R23) -/
  freq : BitVec 20
  /-- `STREAMING` (R24) -/
  streaming : Bool
  /-- `STATUS` (R25): bit 0 `ILL`, bit 1 `REJ` -/
  status : BitVec 2
  /-- `TABLE_LEN` (R26) -/
  tableLen : CellIndex
  /-- `TABLE` (R32) -/
  table : Memory
  /-- the sink event trace (R34), oldest event first. Log 4. -/
  trace : List SinkEvent
  /-- MODEL: what the host and the sink do next, first move first. Log 1. -/
  inputs : List PortInput
  /-- MODEL: what the last read through a port delivered. Log 3. -/
  delivered : Option Delivered
deriving DecidableEq, Repr

/-- The faults of R176: steps the rules give no meaning. Every one is safe: the model stops and picks no value. -/
inductive Fault where
  /-- a table read at an index at or above `TABLE_LEN` (R54), or by the sink at or above its `len` (R59); raised by the
  table read port; safe -/
  | tableRange
  /-- a table read of a cell below `TABLE_LEN` that is unwritten (R54); raised by the table read port; safe -/
  | unwritten
  /-- a sink read while the sink is stopped (R59); raised by the table read port; safe -/
  | sinkReadWhileStopped
  /-- a host read of the table while `STREAMING = 1` (R54); raised by the table read port; safe -/
  | hostReadWhileStreaming
  /-- a ramp with an empty rising or falling part (R109); raised by `synthesize`; safe -/
  | degenerateRamp
deriving DecidableEq, Repr

/-- The refusals: what the model does not give a meaning. -/
inductive Refusal where
  /-- an instruction without a meaning yet; raised by `exec`'s arm only; safe -/
  | notModelled (mnemonic : String)
  /-- a regeneration while `WAVE` holds 3, which is no waveform and "is never held" (R21); raised by `regenerate`; safe.
  Log 11. -/
  | reservedWaveform
deriving DecidableEq, Repr

/-- The machine right after reset (R37, R200). -/
def State.reset : State where
  wave := 0
  percent := 50
  freq := 100000
  streaming := false
  status := 0
  tableLen := 0
  table := []
  trace := []
  inputs := []
  delivered := none

end Sys2Proof.Machine
end

