-- ==== Sys2Proof/Machine/Flags.lean ====
section
/-! DEFINITION. The `STATUS` bits (10_state.md R25): what a rejection sets (60_exceptions.md R170, R171) and what CLRST
leaves. No command writes a flag as a side effect of computing a value (R31). -/

namespace Sys2Proof.Machine

/-- The two causes of a rejection; a cause's code is the `STATUS` bit it sets (R171). -/
inductive RejectCause where
  /-- the word is no legal encoding -/
  | ill
  /-- SETW, SETP or SETF refused its operand -/
  | rej
deriving DecidableEq, Repr

/-- The bit number of a cause: 0 for `ILL`, 1 for `REJ` (R171). -/
def RejectCause.bit : RejectCause → Nat
  | .ill => 0
  | .rej => 1

/-- `STATUS` with one bit set and the other as it was (R25, R175: the bits are sticky and accumulate). -/
def statusWith (c : RejectCause) (status : BitVec 2) : BitVec 2 := status ||| BitVec.twoPow 2 c.bit

/-- `STATUS` with both bits clear (R149). -/
def statusCleared : BitVec 2 := 0

end Sys2Proof.Machine
end

