-- ==== Sys2Proof/Machine/Ops.lean ====
section
/-! DEFINITION. The named operations over registers, table memory, the sink interface and the rejection (60 R170). -/

namespace Sys2Proof.Machine

/-! ## Outcomes -/

/-- Go on from a next state; a fault or a refusal stands. -/
def andThen (o : Host.Outcome State Fault Refusal) (k : State → Host.Outcome State Fault Refusal) :
    Host.Outcome State Fault Refusal :=
  match o with
  | .next s => k s
  | .fault r => .fault r
  | .refused r => .refused r

/-! ## Register writes: `NAME <- v` (R10) -/

/-- `WAVE <- v` -/
def setWave (v : BitVec 2) (s : State) : State := { s with wave := v }
/-- `PERCENT <- v` -/
def setPercent (v : BitVec 7) (s : State) : State := { s with percent := v }
/-- `FREQ <- v` -/
def setFreq (v : BitVec 20) (s : State) : State := { s with freq := v }
/-- `STREAMING <- v` -/
def setStreaming (v : Bool) (s : State) : State := { s with streaming := v }
/-- `STATUS <- v` -/
def setStatus (v : BitVec 2) (s : State) : State := { s with status := v }
/-- `TABLE_LEN <- v` -/
def setTableLen (v : CellIndex) (s : State) : State := { s with tableLen := v }
/-- The table's cells are those of `m`. -/
def setTable (m : Memory) (s : State) : State := { s with table := m }
/-- The outside world's moves still to come are `l` (log 1). -/
def setInputs (l : List PortInput) (s : State) : State := { s with inputs := l }
/-- A read port delivers `d` (log 3). -/
def setDelivered (d : Option Delivered) (s : State) : State := { s with delivered := d }

/-! ## The rejection: this machine's one exception (60_exceptions.md) -/

/-- `reject X` (R170), the whole of "trap entry" (R173): the named `STATUS` bit is set, nothing else changes, nothing is
saved and nothing is vectored. There is nothing to return from (R175). -/
def reject (c : RejectCause) (s : State) : State := setStatus (statusWith c s.status) s

/-- `STATUS <- 0b00` (R149). -/
def clearStatus (s : State) : State := setStatus statusCleared s

/-! ## Table memory -/

/-- The content of cell `i`: its code, or none while it is unwritten (R52). -/
def Memory.read (m : Memory) (i : Nat) : Option Code :=
  match m with
  | [] => none
  | (j, v) :: m => if i = j then some v else Memory.read m i

/-- `TableWrite(i, v)` (R53): cell `i` is written with `v`. -/
def Memory.write (m : Memory) (i : Nat) (v : Code) : Memory :=
  match m with
  | [] => [(i, v)]
  | (j, x) :: m =>
    if i < j then (i, v) :: (j, x) :: m
    else if i = j then (i, v) :: m
    else (j, x) :: Memory.write m i v

/-- The loop of R112 as it is written: the codes go into the cells from `i` on, one `TableWrite` each, in rising order. -/
def Memory.writeEach (m : Memory) (i : Nat) (codes : List Code) : Memory :=
  match codes with
  | [] => m
  | v :: codes => Memory.writeEach (Memory.write m i v) (i + 1) codes

/-- The codes as written cells, the first at index `i`. -/
def Memory.cellsFrom (i : Nat) (codes : List Code) : Memory :=
  match codes with
  | [] => []
  | v :: codes => (i, v) :: Memory.cellsFrom (i + 1) codes

/-- R112's loop from cell 0, done at once: the cells `0 .. N - 1` hold the `N` codes, the cells from `N` on are left as
they were (R52). Equal to `Memory.writeEach m 0 codes` on a memory in canonical form, and quick to evaluate. -/
def Memory.storeAll (m : Memory) (codes : List Code) : Memory :=
  Memory.cellsFrom 0 codes ++ m.filter fun c => decide (codes.length ≤ c.1)

/-! ## The sink interface (R58) -/

/-- `emit e`: the event is appended to the sink event trace. -/
def emit (e : SinkEvent) (s : State) : State := { s with trace := s.trace ++ [e] }

/-- The sink as the events so far leave it (R59): running with the `len` and `reload` of the last event if that is a
`Start`, stopped otherwise, and stopped after reset (R201). -/
def sinkAfter (trace : List SinkEvent) : Option (CellIndex × Reload) :=
  match trace.getLast? with
  | some (.start len reload) => some (len, reload)
  | some .stop => none
  | none => none

/-- `if STREAMING = 1: emit Stop` -/
def stopIfStreaming (s : State) : State := if s.streaming then emit .stop s else s

/-- `if STREAMING = 1: emit Start(TABLE_LEN, reload)` -/
def startIfStreaming (reload : Reload) (s : State) : State :=
  if s.streaming then emit (.start s.tableLen reload) s else s

end Sys2Proof.Machine
end

