-- ==== Sys2Proof/Machine/Operands.lean ====
section
/-! DEFINITION. Operand assembly (30_encoding.md R74), the operand checks of SETW, SETP and SETF, and the waveform
codes (10_state.md R21). -/

namespace Sys2Proof.Machine

/-- FG's `waveform`, "one of Sine, Square, Ramp" (R90). -/
inductive Waveform where
  | sine
  | square
  | ramp
deriving DecidableEq, Repr

/-- The waveform `WAVE` stands for: `0 = Sine`, `1 = Square`, `2 = Ramp` (R21); 3 is none. -/
def waveformOfCode (w : BitVec 2) : Option Waveform :=
  match w.toNat with
  | 0 => some .sine
  | 1 => some .square
  | 2 => some .ramp
  | _ => none

/-- The code of a waveform (R21). -/
def codeOfWaveform : Waveform → BitVec 2
  | .sine => 0
  | .square => 1
  | .ramp => 2

/-- The operand: the whole field `arg`, read as an unsigned integer, not scaled and not shifted (R74). -/
abbrev operandValue (arg : Arg) : Nat := arg.toNat

/-- SETW's check: `w <= 2` (R141, R77). -/
def waveOperandOk (w : Nat) : Bool := decide (w ≤ 2)

/-- SETP's saturation: below 10 becomes 10, above 90 becomes 90, silently (R142). -/
def saturatePercent (p : Nat) : Nat :=
  if p < Config.pctMin then Config.pctMin
  else if p > Config.pctMax then Config.pctMax
  else p

/-- SETP's step check, made after saturation (R142, R174). -/
def percentStepOk (q : Nat) : Bool := decide (q % Config.pctStep = 0)

/-- SETF's check: `1 <= f <= 999000` (R143, R77). -/
def freqOperandOk (f : Nat) : Bool := decide (Config.fMin ≤ f) && decide (f ≤ Config.fMax)

end Sys2Proof.Machine
end

