-- ==== Sys2Proof/Machine/Rate.lean ====
section
/-! DEFINITION. The functions of the frequency (41_rate.md): the band's sample count, the timer reload, the sample rate,
and the read-only registers that show them (10_state.md R27, R28, R29). -/

namespace Sys2Proof.Machine

/-- `bandCount(f)` (R120, R121): the first test that holds decides. Outside 1..999000 it is not called (R129, log 12). -/
def bandCount (f : Nat) : Nat :=
  if f ≤ 250 then 4000
  else if f ≤ 500 then 2000
  else if f ≤ 5000 then 1000
  else if f ≤ 10000 then 500
  else if f ≤ 20000 then 250
  else if f ≤ 100000 then 100
  else if f ≤ 200000 then 50
  else 10

/-- `sampleRate(f) = f * bandCount(f)`, in cells per second (R125). -/
def sampleRate (f : Nat) : Nat := f * bandCount f

/-- The sample count of the stored frequency, as a number. -/
def countOf (s : State) : Nat := bandCount s.freq.toNat

/-- `SAMPLE_COUNT` (R27). -/
def sampleCountReg (s : State) : CellIndex := BitVec.ofNat 12 (countOf s)

/-- `TIMER_RELOAD` (R28): the Timer-period table at the stored frequency (R123). -/
def timerReloadReg (s : State) : Reload := Config.reloadTable s.freq.toNat

/-- `SAMPLE_RATE` (R29). -/
def sampleRateReg (s : State) : BitVec 24 := BitVec.ofNat 24 (sampleRate s.freq.toNat)

end Sys2Proof.Machine
end

