-- ==== Sys2Proof/Machine/SineExact.lean ====
section
/-! DEFINITION. The sine of 40_synthesis.md R92 for every sample count `N >= 1`, in exact integer arithmetic. The code
`round((sin x + 1) * 2047.5)` is at least `v` exactly when `sin x >= (2 * v - 4096) / 4095`, and that is decided
by comparing angles: how far cell `i` lies from the peak of the sine, against the angle of that cosine. -/

namespace Sys2Proof.Machine

/-- How far cell `i` of a sine of `n` cells lies from the peak: `m` with `0 <= m <= 2 * n` and
`sin (2 * pi * i / n) = cos (pi * m / (2 * n))`. -/
def peakDistance (n i : Nat) : Nat :=
  let d := if 4 * i ≤ n then n - 4 * i else 4 * i - n
  if d ≤ 2 * n then d else 4 * n - d

/-- The loop of `halfTurns`. After `k` turns of the angle, `cur` and `next` have the signs of the sines of `k` and `k + 1`
times it, and `turns` half turns are complete. A turn, less than a half turn, completes one exactly when the sine is no
longer strictly of the sign it has inside the present one. -/
def halfTurnsFrom (a : Int) (cur next : Int) (turns steps : Nat) : Nat :=
  match steps with
  | 0 => turns
  | steps + 1 =>
    halfTurnsFrom a next (2 * a * next - (Config.codeMax : Int) ^ 2 * cur)
      (if 0 < (if turns % 2 = 0 then next else -next) then turns else turns + 1) steps

/-- How many half turns are complete after `m` turns by the angle whose cosine is `a / 4095`: the floor of
`m * arccos (a / 4095) / pi`. -/
def halfTurns (a : Int) (m : Nat) : Nat := halfTurnsFrom a 0 1 0 m

/-- Whether the code of cell `i` of a sine of `n` cells is at least `v`, for `1 <= v <= 4095` (R92, R9): its distance from
the peak is at most the angle whose cosine is `(2 * v - 4096) / 4095`. -/
def sineAtLeast (n i v : Nat) : Bool :=
  decide (peakDistance n i ≤ halfTurns (2 * (v : Int) - 4096) (2 * n))

/-- The largest number of the form `v + w` with `w < 2 ^ bits` that passes a test which only larger numbers fail, bit by
bit from the highest; `v` is known to pass. -/
def largestPassing (test : Nat → Bool) (bits v : Nat) : Nat :=
  match bits with
  | 0 => v
  | bits + 1 => largestPassing test bits (if test (v + 2 ^ bits) then v + 2 ^ bits else v)

/-- The code of cell `i` of a sine of `n` cells, for every `n >= 1` (R92). -/
def sineExact (n i : Nat) : Nat := largestPassing (sineAtLeast n i) 12 0

end Sys2Proof.Machine
end

