-- ==== Sys2Proof/Machine/SineTable.lean ====
section
/-! DEFINITION. The sine quarter table `Q[0..1000]` of 40_synthesis.md R96, in the spec's own rows of ten. -/

namespace Sys2Proof.Machine

/-- `Q[0..99]` (R96). -/
def sineRows0 : List (List Nat) :=
  [ [2048, 2051, 2054, 2057, 2060, 2064, 2067, 2070, 2073, 2076],
    [2080, 2083, 2086, 2089, 2093, 2096, 2099, 2102, 2105, 2109],
    [2112, 2115, 2118, 2121, 2125, 2128, 2131, 2134, 2138, 2141],
    [2144, 2147, 2150, 2154, 2157, 2160, 2163, 2166, 2170, 2173],
    [2176, 2179, 2182, 2186, 2189, 2192, 2195, 2199, 2202, 2205],
    [2208, 2211, 2215, 2218, 2221, 2224, 2227, 2231, 2234, 2237],
    [2240, 2243, 2247, 2250, 2253, 2256, 2259, 2263, 2266, 2269],
    [2272, 2275, 2279, 2282, 2285, 2288, 2291, 2295, 2298, 2301],
    [2304, 2307, 2311, 2314, 2317, 2320, 2323, 2326, 2330, 2333],
    [2336, 2339, 2342, 2346, 2349, 2352, 2355, 2358, 2361, 2365] ]

/-- `Q[100..199]` (R96). -/
def sineRows100 : List (List Nat) :=
  [ [2368, 2371, 2374, 2377, 2380, 2384, 2387, 2390, 2393, 2396],
    [2400, 2403, 2406, 2409, 2412, 2415, 2419, 2422, 2425, 2428],
    [2431, 2434, 2437, 2441, 2444, 2447, 2450, 2453, 2456, 2460],
    [2463, 2466, 2469, 2472, 2475, 2478, 2482, 2485, 2488, 2491],
    [2494, 2497, 2500, 2504, 2507, 2510, 2513, 2516, 2519, 2522],
    [2525, 2529, 2532, 2535, 2538, 2541, 2544, 2547, 2550, 2554],
    [2557, 2560, 2563, 2566, 2569, 2572, 2575, 2578, 2582, 2585],
    [2588, 2591, 2594, 2597, 2600, 2603, 2606, 2609, 2613, 2616],
    [2619, 2622, 2625, 2628, 2631, 2634, 2637, 2640, 2643, 2646],
    [2650, 2653, 2656, 2659, 2662, 2665, 2668, 2671, 2674, 2677] ]

/-- `Q[200..299]` (R96). -/
def sineRows200 : List (List Nat) :=
  [ [2680, 2683, 2686, 2689, 2692, 2695, 2699, 2702, 2705, 2708],
    [2711, 2714, 2717, 2720, 2723, 2726, 2729, 2732, 2735, 2738],
    [2741, 2744, 2747, 2750, 2753, 2756, 2759, 2762, 2765, 2768],
    [2771, 2774, 2777, 2780, 2783, 2786, 2789, 2792, 2795, 2798],
    [2801, 2804, 2807, 2810, 2813, 2816, 2819, 2822, 2825, 2828],
    [2831, 2834, 2837, 2840, 2843, 2846, 2849, 2852, 2855, 2858],
    [2861, 2864, 2867, 2870, 2872, 2875, 2878, 2881, 2884, 2887],
    [2890, 2893, 2896, 2899, 2902, 2905, 2908, 2911, 2913, 2916],
    [2919, 2922, 2925, 2928, 2931, 2934, 2937, 2940, 2942, 2945],
    [2948, 2951, 2954, 2957, 2960, 2963, 2966, 2968, 2971, 2974] ]

/-- `Q[300..399]` (R96). -/
def sineRows300 : List (List Nat) :=
  [ [2977, 2980, 2983, 2986, 2988, 2991, 2994, 2997, 3000, 3003],
    [3006, 3008, 3011, 3014, 3017, 3020, 3023, 3025, 3028, 3031],
    [3034, 3037, 3040, 3042, 3045, 3048, 3051, 3054, 3056, 3059],
    [3062, 3065, 3068, 3070, 3073, 3076, 3079, 3081, 3084, 3087],
    [3090, 3093, 3095, 3098, 3101, 3104, 3106, 3109, 3112, 3115],
    [3117, 3120, 3123, 3126, 3128, 3131, 3134, 3136, 3139, 3142],
    [3145, 3147, 3150, 3153, 3155, 3158, 3161, 3164, 3166, 3169],
    [3172, 3174, 3177, 3180, 3182, 3185, 3188, 3190, 3193, 3196],
    [3198, 3201, 3204, 3206, 3209, 3212, 3214, 3217, 3220, 3222],
    [3225, 3227, 3230, 3233, 3235, 3238, 3241, 3243, 3246, 3248] ]

/-- `Q[400..499]` (R96). -/
def sineRows400 : List (List Nat) :=
  [ [3251, 3254, 3256, 3259, 3261, 3264, 3267, 3269, 3272, 3274],
    [3277, 3279, 3282, 3285, 3287, 3290, 3292, 3295, 3297, 3300],
    [3302, 3305, 3308, 3310, 3313, 3315, 3318, 3320, 3323, 3325],
    [3328, 3330, 3333, 3335, 3338, 3340, 3343, 3345, 3348, 3350],
    [3353, 3355, 3358, 3360, 3363, 3365, 3367, 3370, 3372, 3375],
    [3377, 3380, 3382, 3385, 3387, 3389, 3392, 3394, 3397, 3399],
    [3402, 3404, 3406, 3409, 3411, 3414, 3416, 3418, 3421, 3423],
    [3425, 3428, 3430, 3433, 3435, 3437, 3440, 3442, 3444, 3447],
    [3449, 3451, 3454, 3456, 3458, 3461, 3463, 3465, 3468, 3470],
    [3472, 3475, 3477, 3479, 3482, 3484, 3486, 3488, 3491, 3493] ]

/-- `Q[500..599]` (R96). -/
def sineRows500 : List (List Nat) :=
  [ [3495, 3498, 3500, 3502, 3504, 3507, 3509, 3511, 3513, 3516],
    [3518, 3520, 3522, 3525, 3527, 3529, 3531, 3533, 3536, 3538],
    [3540, 3542, 3544, 3547, 3549, 3551, 3553, 3555, 3558, 3560],
    [3562, 3564, 3566, 3568, 3571, 3573, 3575, 3577, 3579, 3581],
    [3583, 3585, 3588, 3590, 3592, 3594, 3596, 3598, 3600, 3602],
    [3604, 3607, 3609, 3611, 3613, 3615, 3617, 3619, 3621, 3623],
    [3625, 3627, 3629, 3631, 3633, 3635, 3637, 3639, 3641, 3643],
    [3645, 3647, 3649, 3651, 3653, 3655, 3657, 3659, 3661, 3663],
    [3665, 3667, 3669, 3671, 3673, 3675, 3677, 3679, 3681, 3683],
    [3685, 3687, 3689, 3691, 3693, 3694, 3696, 3698, 3700, 3702] ]

/-- `Q[600..699]` (R96). -/
def sineRows600 : List (List Nat) :=
  [ [3704, 3706, 3708, 3710, 3711, 3713, 3715, 3717, 3719, 3721],
    [3723, 3725, 3726, 3728, 3730, 3732, 3734, 3736, 3737, 3739],
    [3741, 3743, 3745, 3746, 3748, 3750, 3752, 3753, 3755, 3757],
    [3759, 3761, 3762, 3764, 3766, 3768, 3769, 3771, 3773, 3775],
    [3776, 3778, 3780, 3781, 3783, 3785, 3787, 3788, 3790, 3792],
    [3793, 3795, 3797, 3798, 3800, 3802, 3803, 3805, 3807, 3808],
    [3810, 3812, 3813, 3815, 3816, 3818, 3820, 3821, 3823, 3824],
    [3826, 3828, 3829, 3831, 3832, 3834, 3836, 3837, 3839, 3840],
    [3842, 3843, 3845, 3846, 3848, 3849, 3851, 3852, 3854, 3856],
    [3857, 3859, 3860, 3862, 3863, 3864, 3866, 3867, 3869, 3870] ]

/-- `Q[700..799]` (R96). -/
def sineRows700 : List (List Nat) :=
  [ [3872, 3873, 3875, 3876, 3878, 3879, 3881, 3882, 3883, 3885],
    [3886, 3888, 3889, 3890, 3892, 3893, 3895, 3896, 3897, 3899],
    [3900, 3902, 3903, 3904, 3906, 3907, 3908, 3910, 3911, 3912],
    [3914, 3915, 3916, 3918, 3919, 3920, 3921, 3923, 3924, 3925],
    [3927, 3928, 3929, 3930, 3932, 3933, 3934, 3935, 3937, 3938],
    [3939, 3940, 3942, 3943, 3944, 3945, 3946, 3948, 3949, 3950],
    [3951, 3952, 3954, 3955, 3956, 3957, 3958, 3959, 3961, 3962],
    [3963, 3964, 3965, 3966, 3967, 3968, 3970, 3971, 3972, 3973],
    [3974, 3975, 3976, 3977, 3978, 3979, 3980, 3981, 3983, 3984],
    [3985, 3986, 3987, 3988, 3989, 3990, 3991, 3992, 3993, 3994] ]

/-- `Q[800..899]` (R96). -/
def sineRows800 : List (List Nat) :=
  [ [3995, 3996, 3997, 3998, 3999, 4000, 4001, 4002, 4003, 4004],
    [4004, 4005, 4006, 4007, 4008, 4009, 4010, 4011, 4012, 4013],
    [4014, 4015, 4015, 4016, 4017, 4018, 4019, 4020, 4021, 4022],
    [4022, 4023, 4024, 4025, 4026, 4027, 4027, 4028, 4029, 4030],
    [4031, 4031, 4032, 4033, 4034, 4035, 4035, 4036, 4037, 4038],
    [4038, 4039, 4040, 4041, 4041, 4042, 4043, 4044, 4044, 4045],
    [4046, 4046, 4047, 4048, 4048, 4049, 4050, 4050, 4051, 4052],
    [4052, 4053, 4054, 4054, 4055, 4056, 4056, 4057, 4058, 4058],
    [4059, 4059, 4060, 4061, 4061, 4062, 4062, 4063, 4063, 4064],
    [4065, 4065, 4066, 4066, 4067, 4067, 4068, 4068, 4069, 4069] ]

/-- `Q[900..999]` (R96). -/
def sineRows900 : List (List Nat) :=
  [ [4070, 4070, 4071, 4071, 4072, 4072, 4073, 4073, 4074, 4074],
    [4075, 4075, 4075, 4076, 4076, 4077, 4077, 4078, 4078, 4078],
    [4079, 4079, 4080, 4080, 4080, 4081, 4081, 4082, 4082, 4082],
    [4083, 4083, 4083, 4084, 4084, 4084, 4085, 4085, 4085, 4086],
    [4086, 4086, 4087, 4087, 4087, 4087, 4088, 4088, 4088, 4088],
    [4089, 4089, 4089, 4089, 4090, 4090, 4090, 4090, 4091, 4091],
    [4091, 4091, 4091, 4092, 4092, 4092, 4092, 4092, 4092, 4093],
    [4093, 4093, 4093, 4093, 4093, 4093, 4094, 4094, 4094, 4094],
    [4094, 4094, 4094, 4094, 4094, 4094, 4095, 4095, 4095, 4095],
    [4095, 4095, 4095, 4095, 4095, 4095, 4095, 4095, 4095, 4095] ]

/-- `Q[1000..1000]` (R96). -/
def sineRows1000 : List (List Nat) :=
  [ [4095] ]

/-- R96's table: blocks of ten rows of ten entries. -/
def sineBlocks : List (List (List Nat)) :=
  [ sineRows0, sineRows100, sineRows200, sineRows300,
    sineRows400, sineRows500, sineRows600, sineRows700,
    sineRows800, sineRows900, sineRows1000 ]

/-- `Q[k]` for `0 <= k <= 1000` (R96); 0 outside the table, where it is not asked for. -/
def sineQuarter (k : Nat) : Nat :=
  ((sineBlocks.getD (k / 100) []).getD (k / 10 % 10) []).getD (k % 10) 0

end Sys2Proof.Machine
end

