-- ==== Sys2Proof/Machine/Synthesis.lean ====
section
/-! DEFINITION. The synthesizer: the pure function `synthesize` and the procedure `Regenerate` (40_synthesis.md), and
`ApplyFrequency`, which calls it (41_rate.md R127). -/

namespace Sys2Proof.Machine

/-! ## Sine -/

/-- `sineCode(i, N)` (R96), for `N` dividing 4000 (R95). -/
def sineCode (i n : Nat) : Nat :=
  let k := i * (4000 / n)
  if k ≤ 1000 then sineQuarter k
  else if k ≤ 2000 then sineQuarter (2000 - k)
  else if k ≤ 3000 then Config.codeMax - sineQuarter (k - 2000)
  else Config.codeMax - sineQuarter (4000 - k)

/-- Cell `i` of a sine of `n` cells (R92): by the quarter table where `n` divides 4000 (R95, R96), by exact arithmetic
otherwise (log 10). -/
def sineCell (n i : Nat) : Code :=
  BitVec.ofNat 12 (if 4000 % n = 0 then sineCode i n else sineExact n i)

/-! ## Square -/

/-- Cell `i` of a square of `n` cells with duty `p` percent (R100): an exact comparison, no rounding. -/
def squareCell (p n i : Nat) : Code :=
  BitVec.ofNat 12 (if 100 * i < p * n then Config.codeMax else 0)

/-! ## Ramp -/

/-- `round(a / 100)`, half up (R9). -/
def roundHundredth (a : Nat) : Nat := (a + 50) / 100

/-- `R`: the number of rising cells (R104). -/
def rampRise (p n : Nat) : Nat := roundHundredth (p * n)

/-- `F = N - R`: the number of falling cells (R104). -/
def rampFall (p n : Nat) : Nat := n - rampRise p n

/-- `rampQuant` (R107, D21): how the exact value `num / den` of a ramp cell becomes an integer; the spec's choice is the
floor. Log 8. -/
def rampQuant (num den : Nat) : Nat := num / den

/-- Cell `i` of a ramp of `r` rising and `f` falling cells under the quantiser `quant` (R105, R106). -/
def rampCodeWith (quant : Nat → Nat → Nat) (r f i : Nat) : Nat :=
  if i < r then quant (Config.codeMax * i) r
  else quant (Config.codeMax * (f - (i - r))) f

/-- Cell `i` of a ramp of `n` cells with symmetry `p` percent. -/
def rampCell (p n i : Nat) : Code :=
  BitVec.ofNat 12 (rampCodeWith rampQuant (rampRise p n) (rampFall p n) i)

/-! ## The function -/

/-- The code of cell `i` in a table of `n` cells (R92, R100, R105, R106). Sine ignores the percent. -/
def cellCode (w : Waveform) (p n i : Nat) : Code :=
  match w with
  | .sine => sineCell n i
  | .square => squareCell p n i
  | .ramp => rampCell p n i

/-- R109's precondition, which only the ramp has: both parts hold at least one cell. -/
def synthesizable (w : Waveform) (p n : Nat) : Bool :=
  match w with
  | .sine => true
  | .square => true
  | .ramp => decide (1 ≤ rampRise p n) && decide (1 ≤ rampFall p n)

/-- `synthesize(waveform, percent, sampleCount)` (R90): `n` codes, or the fault DegenerateRamp outside R109's
precondition. The spec gives it for `n >= 1` and `p <= 100` (R90, R91); what it answers for `n = 0` and above 100 percent,
which no command asks for, is the model's choice (log 22). -/
def synthesize (w : Waveform) (p n : Nat) : Except Fault (List Code) :=
  if synthesizable w p n then .ok ((List.range n).map (cellCode w p n)) else .error .degenerateRamp

/-! ## Regenerate -/

/-- The table written whole: the cells from 0 on, and `TABLE_LEN` (R112). -/
def writeTable (codes : List Code) (s : State) : State :=
  setTableLen (BitVec.ofNat 12 codes.length) (setTable (Memory.storeAll s.table codes) s)

/-- `Regenerate()` (R112), for the stored `WAVE`, `PERCENT` and `FREQ`. With `WAVE = 3` there is no waveform to
synthesize, and the model refuses (log 11). -/
def regenerate (s : State) : Host.Outcome State Fault Refusal :=
  match waveformOfCode s.wave with
  | none => .refused .reservedWaveform
  | some w =>
    match synthesize w s.percent.toNat (countOf s) with
    | .error r => .fault r
    | .ok codes => .next (writeTable codes s)

/-- `if N' != TABLE_LEN: Regenerate()` (R127). -/
def regenerateIfCountChanged (s : State) : Host.Outcome State Fault Refusal :=
  if countOf s ≠ s.tableLen.toNat then regenerate s else .next s

/-- `ApplyFrequency()` (R127). -/
def applyFrequency (s : State) : Host.Outcome State Fault Refusal :=
  andThen (regenerateIfCountChanged (stopIfStreaming s)) fun t =>
    .next (startIfStreaming (timerReloadReg s) t)

end Sys2Proof.Machine
end

