-- ==== Sys2Proof/Machine/Actions.lean ====
section
/-! DEFINITION. APPLYF, SYNTH, START and STOP (42_commands.md section 3). -/

namespace Sys2Proof.Machine

/-- APPLYF (R144): `ApplyFrequency` on the stored frequency. -/
def execApplyf (s : State) : Host.Outcome State Fault Refusal := applyFrequency s

/-- SYNTH (R145): regenerate, inside the bracket if streaming. -/
def execSynth (s : State) : Host.Outcome State Fault Refusal :=
  andThen (regenerate (stopIfStreaming s)) fun t => .next (startIfStreaming (timerReloadReg t) t)

/-- START (R146): regenerate always, then stream. -/
def execStart (s : State) : Host.Outcome State Fault Refusal :=
  andThen (regenerate (stopIfStreaming s)) fun t =>
    .next (emit (.start t.tableLen (timerReloadReg t)) (setStreaming true t))

/-- STOP (R147): no event and no change while not streaming. -/
def execStop (s : State) : Host.Outcome State Fault Refusal :=
  if s.streaming then .next (setStreaming false (emit .stop s)) else .next s

end Sys2Proof.Machine
end

