-- ==== Sys2Proof/Machine/Housekeeping.lean ====
section
/-! DEFINITION. CLRST and NOP (42_commands.md section 4). -/

namespace Sys2Proof.Machine

/-- CLRST (R149). -/
def execClrst (s : State) : Host.Outcome State Fault Refusal := .next (clearStatus s)

/-- NOP (R150): the state after equals the state before. -/
def execNop (s : State) : Host.Outcome State Fault Refusal := .next s

end Sys2Proof.Machine
end

