-- ==== Sys2Proof/Machine/RegisterWrites.lean ====
section
/-! DEFINITION. SETW, SETP and SETF (42_commands.md section 2). -/

namespace Sys2Proof.Machine

/-- SETW (R141): `WAVE` is written, and nothing else; `w > 2` is rejected. -/
def execSetw (w : Arg) (s : State) : Host.Outcome State Fault Refusal :=
  if waveOperandOk (operandValue w) then .next (setWave (BitVec.ofNat 2 (operandValue w)) s)
  else .next (reject .rej s)

/-- SETP (R142): saturate, then check the step, then write `PERCENT`, and nothing else. -/
def execSetp (p : Arg) (s : State) : Host.Outcome State Fault Refusal :=
  let q := saturatePercent (operandValue p)
  if percentStepOk q then .next (setPercent (BitVec.ofNat 7 q) s)
  else .next (reject .rej s)

/-- SETF (R143): the range check, the write of `FREQ` and `ApplyFrequency` in one command. -/
def execSetf (f : Arg) (s : State) : Host.Outcome State Fault Refusal :=
  if freqOperandOk (operandValue f) then applyFrequency (setFreq (BitVec.ofNat 20 (operandValue f)) s)
  else .next (reject .rej s)

end Sys2Proof.Machine
end

