-- ==== Sys2Proof/Machine/Dispatch.lean ====
section
/-! DEFINITION. One arm per command: each calls its meaning. -/

namespace Sys2Proof.Machine

def exec (i : Instr) (s : State) : Host.Outcome State Fault Refusal :=
  match i with
  | .nop => Sys2Proof.Machine.execNop s
  | .setw w => Sys2Proof.Machine.execSetw w s
  | .setp p => Sys2Proof.Machine.execSetp p s
  | .setf f => Sys2Proof.Machine.execSetf f s
  | .applyf => Sys2Proof.Machine.execApplyf s
  | .synth => Sys2Proof.Machine.execSynth s
  | .start => Sys2Proof.Machine.execStart s
  | .stop => Sys2Proof.Machine.execStop s
  | .clrst => Sys2Proof.Machine.execClrst s

end Sys2Proof.Machine
end

