-- ==== Sys2Proof/Machine/Ports.lean ====
section
/-! DEFINITION. The ports (20_memory.md R50): the command port (30 R71, 42 R140), the register read port (10 R35), the
table read port for the host and the sink (20 R54, R59), and reset (70 R200). -/

namespace Sys2Proof.Machine

/-! ## The command port -/

/-- One command word (R140): an illegal word sets `STATUS.ILL` and nothing else (R78), a legal one is executed. -/
def takeCommand (word : Word) (s : State) : Host.Outcome State Fault Refusal :=
  match decode word with
  | .error _ => .next (reject .ill s)
  | .ok i => exec i s

/-! ## The register read port -/

/-- The value at a register address (R35). Addresses 9 to 15 are reserved and read as 0; bits above those used are 0. -/
def registerValue (addr : RegAddr) (s : State) : Word :=
  match addr.toNat with
  | 0 => s.wave.setWidth 32
  | 1 => s.percent.setWidth 32
  | 2 => s.freq.setWidth 32
  | 3 => (sampleCountReg s).setWidth 32
  | 4 => timerReloadReg s
  | 5 => (sampleRateReg s).setWidth 32
  | 6 => s.tableLen.setWidth 32
  | 7 => (BitVec.ofBool s.streaming).setWidth 32
  | 8 => s.status.setWidth 32
  | _ => 0

/-- The host reads a register: the value is delivered and nothing else happens (R35, R57). -/
def readRegister (addr : RegAddr) (s : State) : Host.Outcome State Fault Refusal :=
  .next (setDelivered (some (.register (registerValue addr s))) s)

/-! ## The table read port -/

/-- `TableRead(i)` (R54): the bound check, then the check that the cell is written, then its code, zero-extended. -/
def tableRead (i : CellIndex) (s : State) : Except Fault PortCell :=
  if s.tableLen.toNat ≤ i.toNat then .error .tableRange
  else
    match Memory.read s.table i.toNat with
    | none => .error .unwritten
    | some v => .ok (v.setWidth 16)

/-- The answer of a table read put on the port. -/
def deliverCell (r : Except Fault PortCell) (s : State) : Host.Outcome State Fault Refusal :=
  match r with
  | .error f => .fault f
  | .ok v => .next (setDelivered (some (.cell v)) s)

/-- The host reads a cell, "only while `STREAMING = 0`" (R54; log 15 for the order of the checks). -/
def hostReadCell (i : CellIndex) (s : State) : Host.Outcome State Fault Refusal :=
  if s.streaming then .fault .hostReadWhileStreaming else deliverCell (tableRead i s) s

/-- The sink reads a cell: only while it runs, and only below the `len` of its last `Start` (R59, R54; log 15). -/
def sinkReadCell (i : CellIndex) (s : State) : Host.Outcome State Fault Refusal :=
  match sinkAfter s.trace with
  | none => .fault .sinkReadWhileStopped
  | some (len, _) => if len.toNat ≤ i.toNat then .fault .tableRange else deliverCell (tableRead i s) s

/-! ## Reset and the moves of the outside world -/

/-- Reset at any time and in any state (R200). What the outside world does next is not the block's state and is kept
(log 14). -/
def applyReset (s : State) : State := setInputs s.inputs State.reset

/-- One move of the outside world. -/
def serve (x : PortInput) (s : State) : Host.Outcome State Fault Refusal :=
  match x with
  | .command word => takeCommand word s
  | .readRegister addr => readRegister addr s
  | .hostReadCell i => hostReadCell i s
  | .sinkReadCell i => sinkReadCell i s
  | .reset => .next (applyReset s)

/-- The next move of the outside world is taken and served; with none pending the block keeps all its state (R184,
log 1). -/
def serveNext (s : State) : Host.Outcome State Fault Refusal :=
  match s.inputs with
  | [] => .next s
  | x :: rest => serve x (setInputs rest s)

/-- The command word `w` of `nbits` bits presented next on the command port. -/
def presentWord (nbits w : Nat) (s : State) : State :=
  setInputs (.command (BitVec.ofNat 32 (w % 2 ^ nbits)) :: s.inputs) s

end Sys2Proof.Machine
end

