-- ==== Sys2Proof/Machine/Step.lean ====
section
/-! DEFINITION. One step of the machine: one move of the outside world served by the block (42_commands.md R140). -/

namespace Sys2Proof.Machine

/-- One step: the next command, read or reset (log 1). -/
def step (s : State) : Host.Outcome State Fault Refusal := serveNext s

/-- The state in which the very next step takes the command word `w` of `nbits` bits. Nothing else differs. -/
def State.withFetchWord (s : State) (nbits w : Nat) : State := presentWord nbits w s

end Sys2Proof.Machine
end

