-- ==== Sys2Proof/Machine/Assembler.lean ====
section
/-! DEFINITION. The assembler's text (30_encoding.md R80, R81): one command per line, a line being a list of characters.
Log 20. -/

namespace Sys2Proof.Machine

/-- What a line says. -/
inductive AsmLine where
  /-- a blank line, or a comment alone -/
  | empty
  /-- one command word -/
  | word (w : Word)
  /-- no line of R80 or R81 -/
  | error
deriving DecidableEq, Repr

/-- "anything after `;` is a comment" (R80). -/
def stripComment (line : List Char) : List Char :=
  match line with
  | [] => []
  | c :: cs => if c = ';' then [] else c :: stripComment cs

/-- The words of a line, separated by spaces and tabs; `cur` is the word being read, last character first. -/
def wordsOf (cur line : List Char) : List (List Char) :=
  match line with
  | [] => if cur.isEmpty then [] else [cur.reverse]
  | c :: cs =>
    if c = ' ' ∨ c = '\t' then
      if cur.isEmpty then wordsOf [] cs else cur.reverse :: wordsOf [] cs
    else wordsOf (c :: cur) cs

/-- The value of a digit in base 10 or 16. -/
def digitValue (base : Nat) (c : Char) : Option Nat :=
  let n := c.toNat
  let v := if 48 ≤ n ∧ n ≤ 57 then n - 48
    else if 97 ≤ n ∧ n ≤ 102 then n - 87
    else if 65 ≤ n ∧ n ≤ 70 then n - 55
    else 16
  if v < base then some v else none

/-- The value of a run of digits after those read so far. -/
def digitsValue (base acc : Nat) (cs : List Char) : Option Nat :=
  match cs with
  | [] => some acc
  | c :: cs =>
    match digitValue base c with
    | none => none
    | some v => digitsValue base (acc * base + v) cs

/-- "a decimal or `0x` hexadecimal non-negative integer" (R80). -/
def numberOf (cs : List Char) : Option Nat :=
  match cs with
  | [] => none
  | '0' :: 'x' :: [] => none
  | '0' :: 'x' :: ds => digitsValue 16 0 ds
  | ds => digitsValue 10 0 ds

/-- "the mnemonic of rule R73 in capitals" (R80). -/
def mnemonicOf (cs : List Char) : Option Mnemonic :=
  if cs = ['N', 'O', 'P'] then some .nop
  else if cs = ['S', 'E', 'T', 'W'] then some .setw
  else if cs = ['S', 'E', 'T', 'P'] then some .setp
  else if cs = ['S', 'E', 'T', 'F'] then some .setf
  else if cs = ['A', 'P', 'P', 'L', 'Y', 'F'] then some .applyf
  else if cs = ['S', 'Y', 'N', 'T', 'H'] then some .synth
  else if cs = ['S', 'T', 'A', 'R', 'T'] then some .start
  else if cs = ['S', 'T', 'O', 'P'] then some .stop
  else if cs = ['C', 'L', 'R', 'S', 'T'] then some .clrst
  else none

/-- A mnemonic or pseudo-command with one operand (R80, R81). -/
def termWithOperand (m n : List Char) : Option AsmTerm :=
  if m = ['S', 'E', 'T', 'W'] ∧ n = ['S', 'I', 'N', 'E'] then some .setwSine
  else if m = ['S', 'E', 'T', 'W'] ∧ n = ['S', 'Q', 'U', 'A', 'R', 'E'] then some .setwSquare
  else if m = ['S', 'E', 'T', 'W'] ∧ n = ['R', 'A', 'M', 'P'] then some .setwRamp
  else if m = ['S', 'E', 'T', 'F', 'K'] then (numberOf n).map .setfk
  else
    match mnemonicOf m, numberOf n with
    | some m, some n => some (.withOperand m n)
    | _, _ => none

/-- The word of a well-formed term: `(op << 24) OR n` (R80), a pseudo-command being the command it expands to (R81). -/
def termWord (t : AsmTerm) : Word :=
  match t with
  | .bare m => (BitVec.setWidth 32 (opcodeOf m)) <<< 24
  | .withOperand m n => (BitVec.setWidth 32 (opcodeOf m)) <<< 24 ||| BitVec.ofNat 32 n
  | .setwSine => encode (.setw 0)
  | .setwSquare => encode (.setw 1)
  | .setwRamp => encode (.setw 2)
  | .setfk n => encode (.setf (BitVec.ofNat 24 (1000 * n)))

/-- The word of a term, if it is well formed. -/
def assembleTerm (t : AsmTerm) : Option Word := if t.wellFormed then some (termWord t) else none

/-- A parsed term put into the line's answer. -/
def lineOfTerm (t : Option AsmTerm) : AsmLine :=
  match t.bind assembleTerm with
  | some w => .word w
  | none => .error

/-- One line of assembler text (R80). -/
def assembleLine (line : List Char) : AsmLine :=
  match wordsOf [] (stripComment line) with
  | [] => .empty
  | [m] => lineOfTerm ((mnemonicOf m).map .bare)
  | [m, n] => lineOfTerm (termWithOperand m n)
  | _ => .error

end Sys2Proof.Machine
end

