-- ==== Sys2Proof/Machine/ByteView.lean ====
section
/-! DEFINITION. The platform's byte view of the table (20_memory.md R55), "outside the block": no command and no port uses
it. Log 7. -/

namespace Sys2Proof.Machine

/-- The two byte orders a platform could use. -/
inductive ByteOrder where
  | little
  | big
deriving DecidableEq, Repr

/-- `TABLE_BYTE_ORDER` (R7, D11). -/
def tableByteOrder : ByteOrder := .little

/-- The byte at the lower (`upper = false`) or the higher address of a cell. -/
def cellByte (order : ByteOrder) (upper : Bool) (v : PortCell) : Byte :=
  match order, upper with
  | .little, false => v.extractLsb' 0 8
  | .little, true => v.extractLsb' 8 8
  | .big, false => v.extractLsb' 8 8
  | .big, true => v.extractLsb' 0 8

/-- The byte `offset` bytes above `TABLE_BASE`: cell `i` occupies the bytes `2 * i` and `2 * i + 1` (R55). The cell is
read as `TableRead` reads it (R54), whoever reads: that no read here is held to `STREAMING` or to the sink's running is the
model's choice, on which the spec is silent (log 7). -/
def tableByteAt (offset : Nat) (s : State) : Except Fault Byte :=
  if Config.tableCap ≤ offset / 2 then .error .tableRange
  else
    match tableRead (BitVec.ofNat 12 (offset / 2)) s with
    | .error f => .error f
    | .ok v => .ok (cellByte tableByteOrder (decide (offset % 2 = 1)) v)

/-- The byte at a platform address. -/
def platformByte (addr : Nat) (s : State) : Except Fault Byte :=
  if addr < Config.tableBase then .error .tableRange else tableByteAt (addr - Config.tableBase) s

end Sys2Proof.Machine
end

