-- ==== Sys2Proof/Machine/HostSequences.lean ====
section
/-! DEFINITION. The host's duties carried over from the Menu State Machine (70_reset_and_hazards.md R209 to R214): each is
the command sequence that carries it out, computed from what the host can read. -/

namespace Sys2Proof.Machine

/-- The commands in the order of presentation (R71), each completed before the next. -/
def execAll (l : List Instr) (s : State) : Host.Outcome State Fault Refusal :=
  match l with
  | [] => .next s
  | i :: l => andThen (exec i s) (execAll l)

/-- The waveform code a tick leads to: forward `(WAVE + 1) mod 3`, backward `(WAVE + 2) mod 3` (R210). -/
def nextWaveCode (forward : Bool) (s : State) : Nat :=
  if forward then (s.wave.toNat + 1) % 3 else (s.wave.toNat + 2) % 3

/-- A waveform tick (R210): `SETW w'`, `SETP 50`, then `SYNTH` only if streaming. -/
def waveformTick (forward : Bool) (s : State) : List Instr :=
  [.setw (BitVec.ofNat 24 (nextWaveCode forward s)), .setp 50] ++ (if s.streaming then [.synth] else [])

/-- The percent a tick sends, 0 and 100 at the ends (R211). -/
def nextPercent (up : Bool) (s : State) : Nat :=
  if up then s.percent.toNat + 10 else s.percent.toNat - 10

/-- A percent tick (R211): `SETP`, then `SYNTH` only if streaming and the waveform is Square or Ramp. -/
def percentTick (up : Bool) (s : State) : List Instr :=
  [.setp (BitVec.ofNat 24 (nextPercent up s))] ++
    (if s.streaming && (s.wave == 1 || s.wave == 2) then [.synth] else [])

/-- A frequency digit edit (R212): the candidate frequency, which the menu computes, in one SETF. -/
def frequencyEdit (f : Arg) : List Instr := [.setf f]

/-- The transmit toggle (R213). -/
def transmitToggle (s : State) : List Instr := if s.streaming then [.stop] else [.start]

/-- The unit toggle (R214): SETF with the new frequency if the host's toggle changes it, nothing if not. What the toggle
does to the frequency is the host's, unconstrained (U15, log 21). -/
def unitToggle (newFreq : Option Arg) : List Instr :=
  match newFreq with
  | some f => [.setf f]
  | none => []

end Sys2Proof.Machine
end

