-- ==== Sys2Proof/Safety.lean ====
section
/-! DEFINITION. What the statements are about: the invariants I1 to I8 of 10_state.md R36, the order of the sink's events,
and the states and outcomes the statements name. -/

namespace Sys2Proof.Safety

open Sys2Proof.Machine

/-- The percents `PERCENT` may hold: `10, 20, ..., 90` (R22). -/
def LegalPercent (p : Nat) : Prop := 10 ≤ p ∧ p ≤ 90 ∧ p % 10 = 0

/-- The frequencies `FREQ` may hold (R23). -/
def LegalFreq (f : Nat) : Prop := 1 ≤ f ∧ f ≤ 999000

/-- The eight band counts (R13, R120). -/
def BandCounts : List Nat := [4000, 2000, 1000, 500, 250, 100, 50, 10]

/-- One event of the sink's interface in turn: `Start` while it is stopped, `Stop` while it runs; none when the event is
out of turn. -/
def phaseAfter (phase : Option Bool) (e : SinkEvent) : Option Bool :=
  match phase, e with
  | some false, .start _ _ => some true
  | some true, .stop => some false
  | some false, .stop => none
  | some true, .start _ _ => none
  | none, _ => none

/-- Whether the sink runs after the events of a trace, which begins with the sink stopped; none once an event was out of
turn (R36 I8). -/
def sinkPhase (trace : List SinkEvent) : Option Bool := trace.foldl phaseAfter (some false)

/-- I8: in the trace `Start` and `Stop` alternate, beginning with `Start` (R36). -/
def Alternates (trace : List SinkEvent) : Prop := sinkPhase trace ≠ none

/-- I5's table: the cells below the length are written and are one table of `synthesize` for some waveform and legal
percent, those of the last regeneration (R36; log 17: which they were is history the block does not hold). -/
def HoldsOneTable (s : State) : Prop :=
  ∃ w p codes, LegalPercent p ∧ synthesize w p s.tableLen.toNat = .ok codes ∧
    ∀ i, i < s.tableLen.toNat → Memory.read s.table i = codes[i]?

/-- The parameter registers hold legal values: I1 to I3 (R36). -/
structure LegalParams (s : State) : Prop where
  wave : s.wave.toNat ≤ 2
  percent : LegalPercent s.percent.toNat
  freq : LegalFreq s.freq.toNat

/-- The invariants I1 to I8 of R36, and the canonical form of table memory. -/
structure Inv (s : State) : Prop where
  params : LegalParams s
  len : s.tableLen = 0 ∨ s.tableLen.toNat = countOf s
  table : s.tableLen ≠ 0 → HoldsOneTable s
  streams : s.streaming = true → s.tableLen ≠ 0 ∧ sinkAfter s.trace = some (s.tableLen, timerReloadReg s)
  idles : s.streaming = false → sinkAfter s.trace = none
  alternates : Alternates s.trace
  memory : Memory.wf s.table = true

/-- The commands a rejection refuses for their operand: the three `REJ` causes of R171. -/
def OperandRejected : Instr → Prop
  | .setw w => 2 < w.toNat
  | .setp p => 10 < p.toNat ∧ p.toNat < 90 ∧ p.toNat % 10 ≠ 0
  | .setf f => f.toNat = 0 ∨ 999000 < f.toNat
  | .nop | .applyf | .synth | .start | .stop | .clrst => False

/-- All but the table, `TABLE_LEN`, `STREAMING` and the trace is the same in two states. -/
structure SameOutsideTable (s t : State) : Prop where
  wave : t.wave = s.wave
  percent : t.percent = s.percent
  freq : t.freq = s.freq
  status : t.status = s.status
  inputs : t.inputs = s.inputs
  delivered : t.delivered = s.delivered

/-- The table of `t` is the one of `s` rewritten (R112): the `n` cells from 0 on hold `synthesize` of waveform `w` and percent
`p`, every other cell reads as before, and `TABLE_LEN` is `n`. -/
structure TableRewritten (w : Waveform) (p n : Nat) (s t : State) : Prop where
  len : t.tableLen.toNat = n
  cells : ∃ codes, synthesize w p n = .ok codes ∧ codes.length = n ∧ ∀ i, i < n → Memory.read t.table i = codes[i]?
  others : ∀ i, n ≤ i → Memory.read t.table i = Memory.read s.table i

/-- Every cell reads as before, and the length is as before. -/
structure TableKept (s t : State) : Prop where
  len : t.tableLen = s.tableLen
  cells : ∀ i, Memory.read t.table i = Memory.read s.table i

/-- The events of a refresh at frequency `f` (R148): `Stop` then `Start` while streaming, none while not. -/
def refreshEvents (streaming : Bool) (f : Nat) : List SinkEvent :=
  if streaming then [.stop, .start (BitVec.ofNat 12 (bandCount f)) (Config.reloadTable f)] else []

/-- A move that is no read of the table: a command, a register read or a reset. -/
def NoTableRead : PortInput → Prop
  | .command _ | .readRegister _ | .reset => True
  | .hostReadCell _ | .sinkReadCell _ => False

/-- What R107 asks of a quantiser: the value depends on the rational number `num / den` alone and grows with it, and 0 and
4095 stay as they are. -/
structure QuantiserLaw (quant : Nat → Nat → Nat) : Prop where
  mono : ∀ a b c d, 0 < b → 0 < d → a * d ≤ c * b → quant a b ≤ quant c d
  zero : ∀ b, 0 < b → quant 0 b = 0
  top : ∀ b, 0 < b → quant (4095 * b) b = 4095

end Sys2Proof.Safety
end

