-- ==== Sys2Proof/Certificates/Slice0/Obligations.lean ====
section
/-! DEFINITION. The statements for the provers. Each docstring names the rule of spec/ it formalises, or says that it is
the model's choice. -/

open Sys2Proof Sys2Proof.Machine Sys2Proof.Safety

/-! ## Encoding (30_encoding.md) -/

/-- R72 to R76: the word of every command, with every operand, decodes to that command. -/
def Obligations.DecodeOfEncode : Prop := ∀ i : Instr, decode (encode i) = .ok i

/-- R72 to R76: a word that decodes is the word of its command, so every legal word has one meaning. -/
def Obligations.EncodeOfDecoded : Prop := ∀ (w : Word) (i : Instr), decode w = .ok i → encode i = w

/-- R73: a word is the command of a row exactly when `W AND mask = match`; the nine patterns are pairwise disjoint; a word
that matches no row is illegal. -/
def Obligations.DecodeFollowsMatchAndMask : Prop :=
  opcodeRows =
    [⟨.nop, 0x00000000, 0xFFFFFFFF⟩, ⟨.setw, 0x01000000, 0xFF000000⟩, ⟨.setp, 0x02000000, 0xFF000000⟩,
      ⟨.setf, 0x03000000, 0xFF000000⟩, ⟨.applyf, 0x04000000, 0xFFFFFFFF⟩, ⟨.synth, 0x05000000, 0xFFFFFFFF⟩,
      ⟨.start, 0x06000000, 0xFFFFFFFF⟩, ⟨.stop, 0x07000000, 0xFFFFFFFF⟩, ⟨.clrst, 0x08000000, 0xFFFFFFFF⟩] ∧
  (∀ (w : Word) (r : OpcodeRow), r ∈ opcodeRows →
    (w &&& r.mask = r.matchBits ↔ ∃ i, decode w = .ok i ∧ i.mnemonic = r.mnemonic)) ∧
  opcodeRows.Pairwise (fun a b => ∀ w : Word, ¬(w &&& a.mask = a.matchBits ∧ w &&& b.mask = b.matchBits)) ∧
  ∀ w : Word, (∀ r ∈ opcodeRows, w &&& r.mask ≠ r.matchBits) → ∃ e, decode w = .error e

/-- R78: the illegal words are those with a reserved opcode and those of a no-operand opcode with `arg` not zero; such a
word sets `STATUS.ILL` and changes nothing else, and the block then takes the next command. -/
def Obligations.IllegalWordSetsIllAndNothingElse : Prop :=
  (∀ w : Word, (∃ e, decode w = .error e) ↔
    (9 ≤ (opField w).toNat ∨
      ((opField w).toNat ∈ [0, 4, 5, 6, 7, 8] ∧ argField w ≠ 0))) ∧
  ∀ (s : State) (w : Word) (rest : List PortInput) (e : IllegalWord),
    s.inputs = .command w :: rest → decode w = .error e →
    step s = .next { s with inputs := rest, status := s.status ||| 1 }

/-- The words of 95_test_vectors.md V40 decode to the commands written beside them. -/
def Obligations.SampleWordsDecode : Prop :=
  decode 0x00000000 = .ok .nop ∧ decode 0x01000002 = .ok (.setw 2) ∧ decode 0x0200001E = .ok (.setp 30) ∧
  decode 0x03001389 = .ok (.setf 5001) ∧ decode 0x030F3E58 = .ok (.setf 999000) ∧ decode 0x04000000 = .ok .applyf ∧
  decode 0x05000000 = .ok .synth ∧ decode 0x06000000 = .ok .start ∧ decode 0x07000000 = .ok .stop ∧
  decode 0x08000000 = .ok .clrst

/-- R80 and R81: every well-formed assembler term has a word, `(op << 24) OR n`, which decodes to the command it names;
`SETW SINE`, `SETW SQUARE`, `SETW RAMP` are `SETW 0`, `1`, `2` and `SETFK n` is `SETF (1000 * n)`. -/
def Obligations.AssembledTermsDecode : Prop :=
  (∀ (m : Mnemonic) (n : Nat), (AsmTerm.withOperand m n).wellFormed = true →
    assembleTerm (.withOperand m n) = some (BitVec.ofNat 32 ((opcodeOf m).toNat * 2 ^ 24 + n)) ∧
    ∃ i, decode (termWord (.withOperand m n)) = .ok i ∧ i.mnemonic = m ∧ (operandOf i).toNat = n) ∧
  (∀ m : Mnemonic, (AsmTerm.bare m).wellFormed = true →
    ∃ i, decode (termWord (.bare m)) = .ok i ∧ i.mnemonic = m) ∧
  assembleTerm .setwSine = some (encode (.setw 0)) ∧ assembleTerm .setwSquare = some (encode (.setw 1)) ∧
  assembleTerm .setwRamp = some (encode (.setw 2)) ∧
  ∀ n : Nat, n ≤ 16777 → ∃ f : Arg, assembleTerm (.setfk n) = some (encode (.setf f)) ∧ f.toNat = 1000 * n

/-! ## The step (42_commands.md R140) -/

/-- R140: when the next move is a command word that decodes to a command, the step is the execution of that command, with
the word taken from the moves to come. -/
def Obligations.StepRunsDecodedCommand : Prop :=
  ∀ (s : State) (w : Word) (rest : List PortInput) (i : Instr),
    s.inputs = .command w :: rest → decode w = .ok i → step s = exec i { s with inputs := rest }

/-- The word of a command placed as the next one is what the very next step executes. The model's choice of where a
command word stands: log 1. -/
def Obligations.PlacedCommandRunsNext : Prop :=
  ∀ (s : State) (i : Instr), step (s.withFetchWord 32 (encode i).toNat) = exec i s

/-- With no move pending the block keeps all its state. The model's choice: log 1. -/
def Obligations.IdleStepKeepsState : Prop := ∀ s : State, s.inputs = [] → step s = .next s

/-! ## The register writes (42_commands.md section 2) -/

/-- R141: SETW writes `WAVE` for `w <= 2` and is rejected for every other operand; nothing else changes. -/
def Obligations.SetwWritesWaveOrRejects : Prop :=
  ∀ (w : Arg) (s : State),
    encode (.setw w) = 0x01000000 ||| w.setWidth 32 ∧
    (w.toNat ≤ 2 → exec (.setw w) s = .next { s with wave := w.setWidth 2 }) ∧
    (2 < w.toNat → exec (.setw w) s = .next { s with status := s.status ||| 2 })

/-- R142: SETP saturates silently, then rejects a value that is no multiple of 10; nothing but `PERCENT` or `STATUS.REJ`
changes. -/
def Obligations.SetpSaturatesThenChecksStep : Prop :=
  ∀ (p : Arg) (s : State),
    encode (.setp p) = 0x02000000 ||| p.setWidth 32 ∧
    (p.toNat < 10 → exec (.setp p) s = .next { s with percent := 10 }) ∧
    (90 < p.toNat → exec (.setp p) s = .next { s with percent := 90 }) ∧
    (10 ≤ p.toNat → p.toNat ≤ 90 → p.toNat % 10 = 0 → exec (.setp p) s = .next { s with percent := p.setWidth 7 }) ∧
    (10 < p.toNat → p.toNat < 90 → p.toNat % 10 ≠ 0 → exec (.setp p) s = .next { s with status := s.status ||| 2 })

/-- R143: SETF outside `[1, 999000]` sets `STATUS.REJ` and changes nothing else. In range it writes `FREQ` and applies it: the
table is rewritten for the current waveform and percent exactly if the band count differs from `TABLE_LEN`, the trace gains
`Stop` and `Start` exactly if streaming, and nothing else changes. -/
def Obligations.SetfWritesFreqAndApplies : Prop :=
  (∀ f : Arg, encode (.setf f) = 0x03000000 ||| f.setWidth 32) ∧
  (∀ (f : Arg) (s : State), (f.toNat = 0 ∨ 999000 < f.toNat) →
    exec (.setf f) s = .next { s with status := s.status ||| 2 }) ∧
  ∀ (f : Arg) (s : State) (w : Waveform), LegalFreq f.toNat → waveformOfCode s.wave = some w →
    LegalPercent s.percent.toNat →
    ∃ t, exec (.setf f) s = .next t ∧ t.freq.toNat = f.toNat ∧ t.wave = s.wave ∧ t.percent = s.percent ∧
      t.status = s.status ∧ t.streaming = s.streaming ∧ t.inputs = s.inputs ∧ t.delivered = s.delivered ∧
      (bandCount f.toNat ≠ s.tableLen.toNat → TableRewritten w s.percent.toNat (bandCount f.toNat) s t) ∧
      (bandCount f.toNat = s.tableLen.toNat → TableKept s t) ∧
      t.trace = s.trace ++ refreshEvents s.streaming f.toNat

/-! ## The actions (42_commands.md section 3) -/

/-- R144 with R127: APPLYF runs `ApplyFrequency` on the stored frequency: the table is rewritten exactly if the band count
differs from `TABLE_LEN`, the sink is bounced exactly if streaming, and nothing else changes. -/
def Obligations.ApplyfAppliesStoredFrequency : Prop :=
  ∀ (s : State) (w : Waveform), waveformOfCode s.wave = some w → LegalPercent s.percent.toNat →
    ∃ t, exec .applyf s = .next t ∧ SameOutsideTable s t ∧ t.streaming = s.streaming ∧
      (bandCount s.freq.toNat ≠ s.tableLen.toNat → TableRewritten w s.percent.toNat (bandCount s.freq.toNat) s t) ∧
      (bandCount s.freq.toNat = s.tableLen.toNat → TableKept s t) ∧
      t.trace = s.trace ++ refreshEvents s.streaming s.freq.toNat

/-- R145: SYNTH rewrites the table for the current registers, re-streaming if streaming; nothing else changes. -/
def Obligations.SynthRegeneratesAndRestreams : Prop :=
  ∀ (s : State) (w : Waveform), waveformOfCode s.wave = some w → LegalPercent s.percent.toNat →
    encode .synth = 0x05000000 ∧
    ∃ t, exec .synth s = .next t ∧ SameOutsideTable s t ∧ t.streaming = s.streaming ∧
      TableRewritten w s.percent.toNat (bandCount s.freq.toNat) s t ∧
      t.trace = s.trace ++ refreshEvents s.streaming s.freq.toNat

/-- R146: START regenerates, sets `STREAMING`, and emits `Start` with the new length and the reload of the stored frequency,
after a `Stop` if it was streaming; nothing else changes. -/
def Obligations.StartRegeneratesAndStreams : Prop :=
  ∀ (s : State) (w : Waveform), waveformOfCode s.wave = some w → LegalPercent s.percent.toNat →
    encode .start = 0x06000000 ∧
    ∃ t, exec .start s = .next t ∧ SameOutsideTable s t ∧ t.streaming = true ∧
      TableRewritten w s.percent.toNat (bandCount s.freq.toNat) s t ∧
      t.trace = s.trace ++ (if s.streaming then [.stop] else []) ++
        [.start (BitVec.ofNat 12 (bandCount s.freq.toNat)) (Config.reloadTable s.freq.toNat)]

/-- R147: STOP while streaming emits `Stop` and clears `STREAMING`; while not streaming it does nothing. -/
def Obligations.StopEndsStreaming : Prop :=
  ∀ s : State, encode .stop = 0x07000000 ∧
    (s.streaming = true → exec .stop s = .next { s with streaming := false, trace := s.trace ++ [.stop] }) ∧
    (s.streaming = false → exec .stop s = .next s)

/-- R146: "START while already streaming is the same as SYNTH", in every state. -/
def Obligations.StartWhileStreamingIsSynth : Prop :=
  ∀ s : State, s.streaming = true → exec .start s = exec .synth s

/-- R216: a host that brackets a refresh itself, `STOP; SYNTH; START`, ends in the very state that `SYNTH` alone leaves. -/
def Obligations.HostBracketEqualsSynth : Prop :=
  ∀ s : State, s.streaming = true → execAll [.stop, .synth, .start] s = exec .synth s

/-! ## Housekeeping (42_commands.md section 4) -/

/-- R149: CLRST clears both flags and changes nothing else; a CLRST word with `arg` not zero sets
`ILL` instead. -/
def Obligations.ClrstClearsStatusOnly : Prop :=
  (∀ s : State, exec .clrst s = .next { s with status := 0 }) ∧ encode .clrst = 0x08000000 ∧
  ∀ (w : Word) (s : State), opField w = 0x08 → argField w ≠ 0 →
    takeCommand w s = .next { s with status := s.status ||| 1 }

/-- R150: the state after NOP equals the state before it. -/
def Obligations.NopChangesNothing : Prop :=
  encode .nop = 0x00000000 ∧ ∀ s : State, exec .nop s = .next s

/-! ## Rejections (60_exceptions.md) and write sets (42_commands.md R151) -/

/-- R170, R171, R174: by its word, a command is illegal, or rejected for its operand, or neither: an illegal word sets
`ILL` alone, a rejected command sets `REJ` alone, both change nothing else, and any other command but CLRST leaves
`STATUS` as it was. -/
def Obligations.RejectionsArePrecise : Prop :=
  ∀ (w : Word) (s : State),
    (∀ e, decode w = .error e → takeCommand w s = .next { s with status := s.status ||| 1 }) ∧
    (∀ i, decode w = .ok i → OperandRejected i → takeCommand w s = .next { s with status := s.status ||| 2 }) ∧
    ∀ i t, decode w = .ok i → ¬OperandRejected i → i ≠ .clrst → takeCommand w s = .next t → t.status = s.status

/-- R25 and R140: no command reads `STATUS`: from states that differ in `STATUS` alone, a command ends the same way, and the
states after differ in `STATUS` at most. -/
def Obligations.NoCommandReadsStatus : Prop :=
  ∀ (i : Instr) (s : State) (v : BitVec 2),
    (∀ t, exec i s = .next t →
      ∃ t', exec i { s with status := v } = .next t' ∧ { t' with status := t.status } = t) ∧
    (∀ r, exec i s = .fault r → exec i { s with status := v } = .fault r) ∧
    (∀ r, exec i s = .refused r → exec i { s with status := v } = .refused r)

/-- R151: what each command may change, and what it never does. -/
def Obligations.CommandsChangeOnlyTheirWriteSet : Prop :=
  ∀ (i : Instr) (s t : State), exec i s = .next t →
    (t.wave ≠ s.wave → ∃ w, i = .setw w ∧ w.toNat ≤ 2) ∧
    (t.percent ≠ s.percent → ∃ p, i = .setp p ∧ ¬OperandRejected i) ∧
    (t.freq ≠ s.freq → ∃ f, i = .setf f ∧ LegalFreq f.toNat) ∧
    (t.streaming ≠ s.streaming → (i = .start ∧ t.streaming = true) ∨ (i = .stop ∧ t.streaming = false)) ∧
    ((t.table ≠ s.table ∨ t.tableLen ≠ s.tableLen) →
      i = .synth ∨ i = .start ∨ (i = .applyf ∧ bandCount s.freq.toNat ≠ s.tableLen.toNat) ∨
      ∃ f, i = .setf f ∧ LegalFreq f.toNat ∧ bandCount f.toNat ≠ s.tableLen.toNat) ∧
    (t.trace ≠ s.trace →
      i = .start ∨ (s.streaming = true ∧ (i = .synth ∨ i = .applyf ∨ i = .stop ∨ ∃ f, i = .setf f ∧ LegalFreq f.toNat))) ∧
    (t.status ≠ s.status → i = .clrst ∨ OperandRejected i) ∧
    t.inputs = s.inputs ∧ t.delivered = s.delivered

/-- R112 and R52: whatever the command, the cells it may write are those below the new `TABLE_LEN`; every cell from there on
reads as before. -/
def Obligations.CellsAboveTheTableAreKept : Prop :=
  ∀ (i : Instr) (s t : State), exec i s = .next t → t.table ≠ s.table →
    t.tableLen.toNat = bandCount t.freq.toNat ∧
    ∀ a, bandCount t.freq.toNat ≤ a → Memory.read t.table a = Memory.read s.table a

/-! ## The rate controller (41_rate.md) -/

/-- R120: the eight bands. -/
def Obligations.BandCountsOfTheEightBands : Prop :=
  ∀ f : Nat,
    (1 ≤ f ∧ f ≤ 250 → bandCount f = 4000) ∧ (251 ≤ f ∧ f ≤ 500 → bandCount f = 2000) ∧
    (501 ≤ f ∧ f ≤ 5000 → bandCount f = 1000) ∧ (5001 ≤ f ∧ f ≤ 10000 → bandCount f = 500) ∧
    (10001 ≤ f ∧ f ≤ 20000 → bandCount f = 250) ∧ (20001 ≤ f ∧ f ≤ 100000 → bandCount f = 100) ∧
    (100001 ≤ f ∧ f ≤ 200000 → bandCount f = 50) ∧ (200001 ≤ f ∧ f ≤ 999000 → bandCount f = 10)

/-- R122: `bandCount` is non-increasing, takes exactly the eight band counts on the legal frequencies, each a multiple of 10
and a divisor of 4000 that fits 12 bits, and has the values of the rule's list at the band edges. -/
def Obligations.BandCountFallsThroughTheEightCounts : Prop :=
  (∀ f g : Nat, f ≤ g → bandCount g ≤ bandCount f) ∧
  (∀ n : Nat, n ∈ BandCounts ↔ ∃ f, LegalFreq f ∧ bandCount f = n) ∧
  (∀ n ∈ BandCounts, n % 10 = 0 ∧ 4000 % n = 0 ∧ n < 2 ^ 12) ∧
  [1, 250, 251, 500, 501, 5000, 5001, 10000, 10001, 20000, 20001, 100000, 100001, 200000, 200001, 999000].map bandCount =
    [4000, 4000, 2000, 2000, 1000, 1000, 500, 500, 250, 250, 100, 100, 50, 50, 10, 10]

/-- R29: `SAMPLE_RATE` is `FREQ * bandCount(FREQ)` exactly, in 24 bits; on the legal frequencies it lies between 4000 and
10000000, which it takes at 100000 and at 200000, and after reset it reads 10000000. -/
def Obligations.SampleRateBounds : Prop :=
  (∀ f : Nat, LegalFreq f → 4000 ≤ sampleRate f ∧ sampleRate f ≤ 10000000) ∧
  sampleRate 1 = 4000 ∧ sampleRate 100000 = 10000000 ∧ sampleRate 200000 = 10000000 ∧
  sampleRateReg State.reset = 10000000 ∧
  ∀ s : State, (sampleRateReg s).toNat = s.freq.toNat * bandCount s.freq.toNat

/-- R128: after every accepted SETF, every APPLYF and every START the four quantities agree, as the register read port
shows them, and a streaming sink holds the table's length and the timer's reload. -/
def Obligations.RateQuantitiesAgree : Prop :=
  ∀ (i : Instr) (s t : State), (i = .applyf ∨ i = .start ∨ ∃ f, i = .setf f ∧ LegalFreq f.toNat) →
    exec i s = .next t →
    registerValue 6 t = registerValue 3 t ∧
    (registerValue 3 t).toNat = bandCount t.freq.toNat ∧
    registerValue 4 t = Config.reloadTable t.freq.toNat ∧
    (registerValue 5 t).toNat = t.freq.toNat * t.tableLen.toNat ∧
    (t.streaming = true → sinkAfter t.trace = some (t.tableLen, registerValue 4 t))

/-! ## The synthesizer (40_synthesis.md) -/

/-- R92 at the eight band counts (R91): cell `i` of the sine table is `round((sin(2 * pi * i / N) + 1) * 2047.5)` over the
real numbers, half up. The quarter table of R96 is thereby the real formula. -/
def Obligations.SineTableIsTheRealFormula : Prop :=
  ∀ (p n : Nat), n ∈ BandCounts → ∃ codes, synthesize .sine p n = .ok codes ∧ codes.length = n ∧
    ∀ (i : Nat) (v : Code), codes[i]? = some v →
      (v.toNat : ℤ) = ⌊(Real.sin (2 * Real.pi * (i : ℝ) / (n : ℝ)) + 1) * (4095 / 2 : ℝ) + 1 / 2⌋

/-- R94 (a) to (e) for every even `N`. -/
def Obligations.SineTableSymmetries : Prop :=
  ∀ n : Nat, 1 ≤ n → n % 2 = 0 →
    (sineCell n 0).toNat = 2048 ∧ (sineCell n (n / 2)).toNat = 2048 ∧
    (∀ i, i ≤ n / 2 → sineCell n (n / 2 - i) = sineCell n i) ∧
    (∀ i, 1 ≤ i → i ≤ n / 2 - 1 → (sineCell n (n / 2 + i)).toNat + (sineCell n i).toNat = 4095) ∧
    (n % 4 = 0 → (sineCell n (n / 4)).toNat = 4095 ∧ (sineCell n (3 * n / 4)).toNat = 0) ∧
    2 * (((List.range n).map fun i => (sineCell n i).toNat).sum) = 4095 * n + 2

/-- R95: for `N` dividing 4000, cell `i` of a sine of `N` cells is cell `i * (4000 / N)` of the sine of 4000 cells; the eight
band counts divide 4000, with the quotients listed. -/
def Obligations.SineTablesAreDecimations : Prop :=
  (∀ p n : Nat, 4000 % n = 0 → ∃ codes all, synthesize .sine p n = .ok codes ∧ synthesize .sine p 4000 = .ok all ∧
    codes.length = n ∧ ∀ i, i < n → codes[i]? = all[i * (4000 / n)]?) ∧
  (BandCounts.map fun n => 4000 / n) = [1, 2, 4, 8, 16, 40, 80, 400] ∧ ∀ n ∈ BandCounts, 4000 % n = 0

/-- R100 and R101: a square table is `H` cells of 4095 and then `N - H` of 0, with `H` the ceiling of `P * N / 100` clipped to
`N`; for the admitted pairs `H = P * N / 100` and both values occur. Above 100
percent, outside R91's domain, the outcome is the model's choice (log 22). -/
def Obligations.SquareTableIsAHighPrefix : Prop :=
  (∀ p n : Nat, 1 ≤ n →
    synthesize .square p n =
      .ok (List.replicate (min n ((p * n + 99) / 100)) 4095 ++ List.replicate (n - min n ((p * n + 99) / 100)) 0)) ∧
  ∀ p n : Nat, LegalPercent p → n ∈ BandCounts →
    100 * min n ((p * n + 99) / 100) = p * n ∧ 1 ≤ p * n / 100 ∧ p * n / 100 ≤ n - 1

/-- R104 to R106: the cells of a ramp whose parts are not empty, with the quantiser floor of R107. -/
def Obligations.RampCellsInterpolate : Prop :=
  ∀ p n r f : Nat, r = (p * n + 50) / 100 → f = n - r → 1 ≤ r → 1 ≤ f →
    ∃ codes, synthesize .ramp p n = .ok codes ∧ codes.length = n ∧
      (∀ i, i < r → (codes[i]?).map BitVec.toNat = some (4095 * i / r)) ∧
      ∀ j, j < f → (codes[r + j]?).map BitVec.toNat = some (4095 * (f - j) / f)

/-- R108 (a), (b), (c) for every quantiser of R107: the ramp begins at 0, reaches 4095 at cell `R`, does not fall before it,
does not rise after it, and stays within `[0, 4095]`. -/
def Obligations.RampShapeForEveryQuantiser : Prop :=
  ∀ (quant : Nat → Nat → Nat) (r f : Nat), QuantiserLaw quant → 1 ≤ r → 1 ≤ f →
    rampCodeWith quant r f 0 = 0 ∧ rampCodeWith quant r f r = 4095 ∧
    (∀ i, i + 1 < r → rampCodeWith quant r f i ≤ rampCodeWith quant r f (i + 1)) ∧
    (∀ i, r ≤ i → i + 1 < r + f → rampCodeWith quant r f (i + 1) ≤ rampCodeWith quant r f i) ∧
    ∀ i, i < r + f → rampCodeWith quant r f i ≤ 4095

/-- R108 (a), (d), (e) for the floor: 4095 stands at cell `R` alone; 0 stands at cell 0 alone while neither part exceeds
4095 cells; with equal parts the table is symmetric about the peak. -/
def Obligations.RampPeakAndZeroAreUnique : Prop :=
  QuantiserLaw rampQuant ∧
  ∀ r f : Nat, 1 ≤ r → 1 ≤ f →
    (∀ i, i < r + f → (rampCodeWith rampQuant r f i = 4095 ↔ i = r)) ∧
    (r ≤ 4095 → f ≤ 4095 → ∀ i, i < r + f → (rampCodeWith rampQuant r f i = 0 ↔ i = 0)) ∧
    (r = f → ∀ j, 1 ≤ j → j ≤ r - 1 → rampCodeWith rampQuant r f (r + j) = rampCodeWith rampQuant r f (r - j))

/-- R109: a ramp with an empty part has no value; only such a ramp has none, since R92 and R100 are total on R91's domain. At
`n = 0` and above 100 percent, outside that domain, the outcome is the model's choice (log 22). -/
def Obligations.DegenerateRampHasNoTable : Prop :=
  ∀ (w : Waveform) (p n : Nat),
    synthesize w p n = .error .degenerateRamp ↔
      w = .ramp ∧ ((p * n + 50) / 100 = 0 ∨ n - (p * n + 50) / 100 = 0)

/-- R110: two SYNTH leave the table of one, cell for cell and as the same data; while not streaming, the same state. -/
def Obligations.SynthTwiceLeavesTheSameTable : Prop :=
  ∀ s t u : State, exec .synth s = .next t → exec .synth t = .next u →
    u.table = t.table ∧ u.tableLen = t.tableLen ∧ (s.streaming = false → u = t)

/-- R112: the table stored at once is the loop of single `TableWrite`s, in rising order, that the rule gives. -/
def Obligations.TableStoreIsTheWriteLoop : Prop :=
  ∀ (m : Memory) (codes : List Code), Memory.wf m = true → codes.length ≤ 4000 →
    Memory.storeAll m codes = Memory.writeEach m 0 codes

/-! ## The read ports (10_state.md R35, 20_memory.md R54, R59, R60) -/

/-- R35: what each address of the register read port delivers; a read changes nothing but the port's answer (the model's
field, log 3) and the moves still to come. -/
def Obligations.RegisterReadPortMap : Prop :=
  (∀ s : State,
    (registerValue 0 s).toNat = s.wave.toNat ∧ (registerValue 1 s).toNat = s.percent.toNat ∧
    (registerValue 2 s).toNat = s.freq.toNat ∧ (registerValue 3 s).toNat = bandCount s.freq.toNat ∧
    registerValue 4 s = Config.reloadTable s.freq.toNat ∧
    (registerValue 5 s).toNat = s.freq.toNat * bandCount s.freq.toNat ∧
    (registerValue 6 s).toNat = s.tableLen.toNat ∧ (registerValue 7 s).toNat = (if s.streaming then 1 else 0) ∧
    (registerValue 8 s).toNat = s.status.toNat ∧ ∀ a : RegAddr, 9 ≤ a.toNat → registerValue a s = 0) ∧
  ∀ (s : State) (a : RegAddr) (rest : List PortInput), s.inputs = .readRegister a :: rest →
    step s = .next { s with inputs := rest, delivered := some (.register (registerValue a s)) }

/-- R54: the host's read of a cell: a fault while streaming; otherwise a fault at or above `TABLE_LEN`, a fault on an
unwritten cell, and else the code zero-extended, with no other effect. -/
def Obligations.HostTableReadOutcomes : Prop :=
  ∀ (s : State) (i : CellIndex) (rest : List PortInput), s.inputs = .hostReadCell i :: rest →
    (s.streaming = true → step s = .fault .hostReadWhileStreaming) ∧
    (s.streaming = false → s.tableLen.toNat ≤ i.toNat → step s = .fault .tableRange) ∧
    (s.streaming = false → i.toNat < s.tableLen.toNat → Memory.read s.table i.toNat = none →
      step s = .fault .unwritten) ∧
    ∀ v, s.streaming = false → i.toNat < s.tableLen.toNat → Memory.read s.table i.toNat = some v →
      step s = .next { s with inputs := rest, delivered := some (.cell (v.setWidth 16)) }

/-- R59 and R54: the sink's read of a cell: a fault while it is stopped; a fault at or above the `len` of its last `Start`;
otherwise, as R54 says, a fault at or above `TABLE_LEN`, a fault on an unwritten cell, and else the code zero-extended. -/
def Obligations.SinkTableReadOutcomes : Prop :=
  ∀ (s : State) (i : CellIndex) (rest : List PortInput), s.inputs = .sinkReadCell i :: rest →
    (sinkAfter s.trace = none → step s = .fault .sinkReadWhileStopped) ∧
    (∀ len r, sinkAfter s.trace = some (len, r) → len.toNat ≤ i.toNat → step s = .fault .tableRange) ∧
    (∀ len r, sinkAfter s.trace = some (len, r) → i.toNat < len.toNat → s.tableLen.toNat ≤ i.toNat →
      step s = .fault .tableRange) ∧
    (∀ len r, sinkAfter s.trace = some (len, r) → i.toNat < len.toNat → i.toNat < s.tableLen.toNat →
      Memory.read s.table i.toNat = none → step s = .fault .unwritten) ∧
    ∀ len r v, sinkAfter s.trace = some (len, r) → i.toNat < len.toNat → i.toNat < s.tableLen.toNat →
      Memory.read s.table i.toNat = some v →
      step s = .next { s with inputs := rest, delivered := some (.cell (v.setWidth 16)) }

/-- R60 (c), R186: while it runs, the sink reads every cell below its `len` without a fault, and all those cells are one
table of `synthesize` of that length. -/
def Obligations.RunningSinkReadsOneTable : Prop :=
  ∀ (s : State) (len : CellIndex) (r : Reload), Inv s → sinkAfter s.trace = some (len, r) →
    ∃ (w : Waveform) (p : Nat) (codes : List Code), LegalPercent p ∧ synthesize w p len.toNat = .ok codes ∧
      ∀ i : CellIndex, i.toNat < len.toNat → ∃ v, codes[i.toNat]? = some v ∧
        sinkReadCell i s = .next { s with delivered := some (.cell (v.setWidth 16)) }

/-- R148, R60 (b): a command met while the sink runs either leaves the table and the trace alone, or stops the sink for good
and leaves the table alone, or stops it, and starts it again after whatever it wrote, with the table's new length and the
reload of the frequency. -/
def Obligations.TableChangesOnlyInsideTheBracket : Prop :=
  ∀ (i : Instr) (s t : State), Inv s → sinkAfter s.trace ≠ none → exec i s = .next t →
    (t.trace = s.trace ∧ t.table = s.table ∧ t.tableLen = s.tableLen ∧ t.streaming = true) ∨
    (i = .stop ∧ t.trace = s.trace ++ [.stop] ∧ t.table = s.table ∧ t.tableLen = s.tableLen ∧ t.streaming = false) ∨
    (t.trace = s.trace ++ [.stop, .start t.tableLen (Config.reloadTable t.freq.toNat)] ∧
      t.tableLen.toNat = bandCount t.freq.toNat ∧ t.streaming = true)

/-- R55: the bytes of a cell in the platform's byte view, low byte at the lower address. The view is outside the block: log
7. -/
def Obligations.CellBytesAreLittleEndian : Prop :=
  ∀ (s : State) (i : CellIndex) (v : PortCell), i.toNat < 4000 → tableRead i s = .ok v →
    ∃ lo hi : Byte, tableByteAt (2 * i.toNat) s = .ok lo ∧ tableByteAt (2 * i.toNat + 1) s = .ok hi ∧
      lo.toNat + 256 * hi.toNat = v.toNat

/-! ## Reset (70_reset_and_hazards.md) and the invariants (10_state.md R36) -/

/-- R37: the value of every piece of state after reset. -/
def Obligations.ResetValues : Prop :=
  State.reset.wave = 0 ∧ State.reset.percent = 50 ∧ State.reset.freq = 100000 ∧ State.reset.streaming = false ∧
  State.reset.status = 0 ∧ State.reset.tableLen = 0 ∧ (∀ i, Memory.read State.reset.table i = none) ∧
  State.reset.trace = [] ∧ sampleCountReg State.reset = 100 ∧
  timerReloadReg State.reset = Config.reloadTable 100000 ∧ sampleRateReg State.reset = 10000000

/-- R200: reset, in any state, gives the state of R37's table; what the outside world does next is kept (the model's
choice, log 14). -/
def Obligations.ResetFromAnyState : Prop :=
  ∀ (s : State) (rest : List PortInput), s.inputs = .reset :: rest →
    step s = .next { State.reset with inputs := rest }

/-- R203: every invariant of R36 holds in the reset state. -/
def Obligations.ResetSatisfiesInvariants : Prop := Inv State.reset

/-- R36: every step keeps I1 to I8, from every state that meets them, with I5 for some waveform and legal percent and I4
without its second half, which are history (the model's reading, log 17). -/
def Obligations.StepKeepsInvariants : Prop := ∀ s t : State, Inv s → step s = .next t → Inv t

/-- R140, R113: from every state that meets the invariants, every word has a next state, which meets them: no command
faults, none is refused, none waits. -/
def Obligations.EveryWordCompletes : Prop :=
  ∀ (w : Word) (s : State), Inv s → ∃ t, takeCommand w s = .next t ∧ Inv t

/-- R140, R185: from every state that meets the invariants, whatever commands, register reads and resets the host presents,
every run of any length goes on, never faults and never refuses, and meets the invariants all along. That a step takes one
move, or keeps all state when none is pending, is the model's choice (log 1), and so is that a reset keeps the moves to
come (log 14). -/
def Obligations.RunsWithoutTableReadsNeverStop : Prop :=
  ∀ (s : State), Inv s → (∀ x ∈ s.inputs, NoTableRead x) →
    ∀ k : Nat, ∃ t : State, Sys2Proof.core.run k s = .next t ∧ Inv t ∧ t.inputs = s.inputs.drop k

/-- Whatever the registers hold, a step keeps the table memory in canonical form: indices rising, every one a cell of the
table space of R51. The canonical form is the model's choice of data (log 5). -/
def Obligations.StepKeepsMemoryForm : Prop :=
  ∀ s t : State, Memory.wf s.table = true → step s = .next t → Memory.wf t.table = true

/-- R36 I4, second half: once a table has been generated no command makes the length 0 again; a command after which it is 0
found it 0 and left every cell alone. -/
def Obligations.TableLenStaysNonzero : Prop :=
  ∀ (i : Instr) (s t : State), exec i s = .next t → t.tableLen = 0 → s.tableLen = 0 ∧ t.table = s.table

/-! ## The host's duties (70_reset_and_hazards.md section 3) -/

/-- R210: a waveform tick leaves the next waveform of the cycle and percent 50; while streaming the table is regenerated for
them and re-streamed, while idle the table and the trace are left alone. -/
def Obligations.WaveformTickCarriesOut : Prop :=
  ∀ (s : State) (forward : Bool), Inv s →
    ∃ (t : State) (w : Waveform), execAll (waveformTick forward s) s = .next t ∧ waveformOfCode t.wave = some w ∧
      t.wave.toNat = (s.wave.toNat + if forward then 1 else 2) % 3 ∧ t.percent = 50 ∧
      t.freq = s.freq ∧ t.streaming = s.streaming ∧ t.status = s.status ∧
      (s.streaming = true → TableRewritten w 50 (bandCount s.freq.toNat) s t) ∧
      (s.streaming = false → TableKept s t) ∧
      t.trace = s.trace ++ refreshEvents s.streaming s.freq.toNat

/-- R211: a percent tick moves the percent by 10, saturating at 10 and 90; while streaming a square or a ramp the table is
regenerated and re-streamed, otherwise the table and the trace are left alone. -/
def Obligations.PercentTickCarriesOut : Prop :=
  ∀ (s : State) (up : Bool), Inv s →
    ∃ (t : State), execAll (percentTick up s) s = .next t ∧ t.wave = s.wave ∧
      t.percent.toNat = (if up then min 90 (s.percent.toNat + 10) else max 10 (s.percent.toNat - 10)) ∧
      t.freq = s.freq ∧ t.streaming = s.streaming ∧ t.status = s.status ∧
      (∀ w, waveformOfCode s.wave = some w → w ≠ .sine → s.streaming = true →
        TableRewritten w t.percent.toNat (bandCount s.freq.toNat) s t ∧
        t.trace = s.trace ++ refreshEvents true s.freq.toNat) ∧
      (s.wave = 0 ∨ s.streaming = false → TableKept s t ∧ t.trace = s.trace)

/-- R213: the transmit toggle turns streaming over, and the sink runs after it exactly if it streams. -/
def Obligations.TransmitToggleCarriesOut : Prop :=
  ∀ s : State, Inv s →
    ∃ t, execAll (transmitToggle s) s = .next t ∧ t.streaming = !s.streaming ∧
      (sinkAfter t.trace).isSome = t.streaming ∧ SameOutsideTable s t

/-! ## The sine at every sample count (40_synthesis.md R91 to R93) -/

/-- R92 at every sample count `N >= 1` that does not divide 4000: cell `i` of the sine table, whatever the percent, is
`round((sin(2 * pi * i / N) + 1) * 2047.5)` over the real numbers, half up. -/
def Obligations.SineOfEveryOtherCountIsTheRealFormula : Prop :=
  ∀ (p n : Nat), 1 ≤ n → 4000 % n ≠ 0 → ∃ codes, synthesize .sine p n = .ok codes ∧ codes.length = n ∧
    ∀ (i : Nat) (v : Code), codes[i]? = some v →
      (v.toNat : ℤ) = ⌊(Real.sin (2 * Real.pi * (i : ℝ) / (n : ℝ)) + 1) * (4095 / 2 : ℝ) + 1 / 2⌋

/-- R93: at every sample count the value before rounding is half-way between two integers exactly where `2 * i mod N = 0`,
and there the cell is 2048. -/
def Obligations.SineTiesAreTheZeroCrossings : Prop :=
  ∀ n i : Nat, i < n →
    ((∃ k : ℤ, (Real.sin (2 * Real.pi * (i : ℝ) / (n : ℝ)) + 1) * (4095 / 2 : ℝ) = (k : ℝ) + 1 / 2) ↔ 2 * i % n = 0) ∧
    (2 * i % n = 0 → (sineCell n i).toNat = 2048)
end

