-- ==== Sys2Proof/Laws/State.lean ====
section
/-! SUPPORT. One lemma per field per update of the state, each true by `rfl`, so that no proof unfolds an update. -/

namespace Sys2Proof.Machine

section
variable (v : BitVec 2) (s : State)
@[simp] theorem setWave_wave : (setWave v s).wave = v := rfl
@[simp] theorem setWave_percent : (setWave v s).percent = s.percent := rfl
@[simp] theorem setWave_freq : (setWave v s).freq = s.freq := rfl
@[simp] theorem setWave_streaming : (setWave v s).streaming = s.streaming := rfl
@[simp] theorem setWave_status : (setWave v s).status = s.status := rfl
@[simp] theorem setWave_tableLen : (setWave v s).tableLen = s.tableLen := rfl
@[simp] theorem setWave_table : (setWave v s).table = s.table := rfl
@[simp] theorem setWave_trace : (setWave v s).trace = s.trace := rfl
@[simp] theorem setWave_inputs : (setWave v s).inputs = s.inputs := rfl
@[simp] theorem setWave_delivered : (setWave v s).delivered = s.delivered := rfl
end

section
variable (v : BitVec 7) (s : State)
@[simp] theorem setPercent_wave : (setPercent v s).wave = s.wave := rfl
@[simp] theorem setPercent_percent : (setPercent v s).percent = v := rfl
@[simp] theorem setPercent_freq : (setPercent v s).freq = s.freq := rfl
@[simp] theorem setPercent_streaming : (setPercent v s).streaming = s.streaming := rfl
@[simp] theorem setPercent_status : (setPercent v s).status = s.status := rfl
@[simp] theorem setPercent_tableLen : (setPercent v s).tableLen = s.tableLen := rfl
@[simp] theorem setPercent_table : (setPercent v s).table = s.table := rfl
@[simp] theorem setPercent_trace : (setPercent v s).trace = s.trace := rfl
@[simp] theorem setPercent_inputs : (setPercent v s).inputs = s.inputs := rfl
@[simp] theorem setPercent_delivered : (setPercent v s).delivered = s.delivered := rfl
end

section
variable (v : BitVec 20) (s : State)
@[simp] theorem setFreq_wave : (setFreq v s).wave = s.wave := rfl
@[simp] theorem setFreq_percent : (setFreq v s).percent = s.percent := rfl
@[simp] theorem setFreq_freq : (setFreq v s).freq = v := rfl
@[simp] theorem setFreq_streaming : (setFreq v s).streaming = s.streaming := rfl
@[simp] theorem setFreq_status : (setFreq v s).status = s.status := rfl
@[simp] theorem setFreq_tableLen : (setFreq v s).tableLen = s.tableLen := rfl
@[simp] theorem setFreq_table : (setFreq v s).table = s.table := rfl
@[simp] theorem setFreq_trace : (setFreq v s).trace = s.trace := rfl
@[simp] theorem setFreq_inputs : (setFreq v s).inputs = s.inputs := rfl
@[simp] theorem setFreq_delivered : (setFreq v s).delivered = s.delivered := rfl
end

section
variable (v : Bool) (s : State)
@[simp] theorem setStreaming_wave : (setStreaming v s).wave = s.wave := rfl
@[simp] theorem setStreaming_percent : (setStreaming v s).percent = s.percent := rfl
@[simp] theorem setStreaming_freq : (setStreaming v s).freq = s.freq := rfl
@[simp] theorem setStreaming_streaming : (setStreaming v s).streaming = v := rfl
@[simp] theorem setStreaming_status : (setStreaming v s).status = s.status := rfl
@[simp] theorem setStreaming_tableLen : (setStreaming v s).tableLen = s.tableLen := rfl
@[simp] theorem setStreaming_table : (setStreaming v s).table = s.table := rfl
@[simp] theorem setStreaming_trace : (setStreaming v s).trace = s.trace := rfl
@[simp] theorem setStreaming_inputs : (setStreaming v s).inputs = s.inputs := rfl
@[simp] theorem setStreaming_delivered : (setStreaming v s).delivered = s.delivered := rfl
end

section
variable (v : BitVec 2) (s : State)
@[simp] theorem setStatus_wave : (setStatus v s).wave = s.wave := rfl
@[simp] theorem setStatus_percent : (setStatus v s).percent = s.percent := rfl
@[simp] theorem setStatus_freq : (setStatus v s).freq = s.freq := rfl
@[simp] theorem setStatus_streaming : (setStatus v s).streaming = s.streaming := rfl
@[simp] theorem setStatus_status : (setStatus v s).status = v := rfl
@[simp] theorem setStatus_tableLen : (setStatus v s).tableLen = s.tableLen := rfl
@[simp] theorem setStatus_table : (setStatus v s).table = s.table := rfl
@[simp] theorem setStatus_trace : (setStatus v s).trace = s.trace := rfl
@[simp] theorem setStatus_inputs : (setStatus v s).inputs = s.inputs := rfl
@[simp] theorem setStatus_delivered : (setStatus v s).delivered = s.delivered := rfl
end

section
variable (v : CellIndex) (s : State)
@[simp] theorem setTableLen_wave : (setTableLen v s).wave = s.wave := rfl
@[simp] theorem setTableLen_percent : (setTableLen v s).percent = s.percent := rfl
@[simp] theorem setTableLen_freq : (setTableLen v s).freq = s.freq := rfl
@[simp] theorem setTableLen_streaming : (setTableLen v s).streaming = s.streaming := rfl
@[simp] theorem setTableLen_status : (setTableLen v s).status = s.status := rfl
@[simp] theorem setTableLen_tableLen : (setTableLen v s).tableLen = v := rfl
@[simp] theorem setTableLen_table : (setTableLen v s).table = s.table := rfl
@[simp] theorem setTableLen_trace : (setTableLen v s).trace = s.trace := rfl
@[simp] theorem setTableLen_inputs : (setTableLen v s).inputs = s.inputs := rfl
@[simp] theorem setTableLen_delivered : (setTableLen v s).delivered = s.delivered := rfl
end

section
variable (v : Memory) (s : State)
@[simp] theorem setTable_wave : (setTable v s).wave = s.wave := rfl
@[simp] theorem setTable_percent : (setTable v s).percent = s.percent := rfl
@[simp] theorem setTable_freq : (setTable v s).freq = s.freq := rfl
@[simp] theorem setTable_streaming : (setTable v s).streaming = s.streaming := rfl
@[simp] theorem setTable_status : (setTable v s).status = s.status := rfl
@[simp] theorem setTable_tableLen : (setTable v s).tableLen = s.tableLen := rfl
@[simp] theorem setTable_table : (setTable v s).table = v := rfl
@[simp] theorem setTable_trace : (setTable v s).trace = s.trace := rfl
@[simp] theorem setTable_inputs : (setTable v s).inputs = s.inputs := rfl
@[simp] theorem setTable_delivered : (setTable v s).delivered = s.delivered := rfl
end

section
variable (v : List PortInput) (s : State)
@[simp] theorem setInputs_wave : (setInputs v s).wave = s.wave := rfl
@[simp] theorem setInputs_percent : (setInputs v s).percent = s.percent := rfl
@[simp] theorem setInputs_freq : (setInputs v s).freq = s.freq := rfl
@[simp] theorem setInputs_streaming : (setInputs v s).streaming = s.streaming := rfl
@[simp] theorem setInputs_status : (setInputs v s).status = s.status := rfl
@[simp] theorem setInputs_tableLen : (setInputs v s).tableLen = s.tableLen := rfl
@[simp] theorem setInputs_table : (setInputs v s).table = s.table := rfl
@[simp] theorem setInputs_trace : (setInputs v s).trace = s.trace := rfl
@[simp] theorem setInputs_inputs : (setInputs v s).inputs = v := rfl
@[simp] theorem setInputs_delivered : (setInputs v s).delivered = s.delivered := rfl
end

section
variable (v : Option Delivered) (s : State)
@[simp] theorem setDelivered_wave : (setDelivered v s).wave = s.wave := rfl
@[simp] theorem setDelivered_percent : (setDelivered v s).percent = s.percent := rfl
@[simp] theorem setDelivered_freq : (setDelivered v s).freq = s.freq := rfl
@[simp] theorem setDelivered_streaming : (setDelivered v s).streaming = s.streaming := rfl
@[simp] theorem setDelivered_status : (setDelivered v s).status = s.status := rfl
@[simp] theorem setDelivered_tableLen : (setDelivered v s).tableLen = s.tableLen := rfl
@[simp] theorem setDelivered_table : (setDelivered v s).table = s.table := rfl
@[simp] theorem setDelivered_trace : (setDelivered v s).trace = s.trace := rfl
@[simp] theorem setDelivered_inputs : (setDelivered v s).inputs = s.inputs := rfl
@[simp] theorem setDelivered_delivered : (setDelivered v s).delivered = v := rfl
end

section
variable (e : SinkEvent) (s : State)
@[simp] theorem emit_wave : (emit e s).wave = s.wave := rfl
@[simp] theorem emit_percent : (emit e s).percent = s.percent := rfl
@[simp] theorem emit_freq : (emit e s).freq = s.freq := rfl
@[simp] theorem emit_streaming : (emit e s).streaming = s.streaming := rfl
@[simp] theorem emit_status : (emit e s).status = s.status := rfl
@[simp] theorem emit_tableLen : (emit e s).tableLen = s.tableLen := rfl
@[simp] theorem emit_table : (emit e s).table = s.table := rfl
@[simp] theorem emit_trace : (emit e s).trace = s.trace ++ [e] := rfl
@[simp] theorem emit_inputs : (emit e s).inputs = s.inputs := rfl
@[simp] theorem emit_delivered : (emit e s).delivered = s.delivered := rfl
end

section
variable (c : RejectCause) (s : State)
@[simp] theorem reject_wave : (reject c s).wave = s.wave := rfl
@[simp] theorem reject_percent : (reject c s).percent = s.percent := rfl
@[simp] theorem reject_freq : (reject c s).freq = s.freq := rfl
@[simp] theorem reject_streaming : (reject c s).streaming = s.streaming := rfl
@[simp] theorem reject_status : (reject c s).status = statusWith c s.status := rfl
@[simp] theorem reject_tableLen : (reject c s).tableLen = s.tableLen := rfl
@[simp] theorem reject_table : (reject c s).table = s.table := rfl
@[simp] theorem reject_trace : (reject c s).trace = s.trace := rfl
@[simp] theorem reject_inputs : (reject c s).inputs = s.inputs := rfl
@[simp] theorem reject_delivered : (reject c s).delivered = s.delivered := rfl
end

section
variable (s : State)
@[simp] theorem clearStatus_wave : (clearStatus s).wave = s.wave := rfl
@[simp] theorem clearStatus_percent : (clearStatus s).percent = s.percent := rfl
@[simp] theorem clearStatus_freq : (clearStatus s).freq = s.freq := rfl
@[simp] theorem clearStatus_streaming : (clearStatus s).streaming = s.streaming := rfl
@[simp] theorem clearStatus_status : (clearStatus s).status = 0 := rfl
@[simp] theorem clearStatus_tableLen : (clearStatus s).tableLen = s.tableLen := rfl
@[simp] theorem clearStatus_table : (clearStatus s).table = s.table := rfl
@[simp] theorem clearStatus_trace : (clearStatus s).trace = s.trace := rfl
@[simp] theorem clearStatus_inputs : (clearStatus s).inputs = s.inputs := rfl
@[simp] theorem clearStatus_delivered : (clearStatus s).delivered = s.delivered := rfl
end

section
variable (codes : List Code) (s : State)
@[simp] theorem writeTable_wave : (writeTable codes s).wave = s.wave := rfl
@[simp] theorem writeTable_percent : (writeTable codes s).percent = s.percent := rfl
@[simp] theorem writeTable_freq : (writeTable codes s).freq = s.freq := rfl
@[simp] theorem writeTable_streaming : (writeTable codes s).streaming = s.streaming := rfl
@[simp] theorem writeTable_status : (writeTable codes s).status = s.status := rfl
@[simp] theorem writeTable_tableLen : (writeTable codes s).tableLen = BitVec.ofNat 12 codes.length := rfl
@[simp] theorem writeTable_table : (writeTable codes s).table = Memory.storeAll s.table codes := rfl
@[simp] theorem writeTable_trace : (writeTable codes s).trace = s.trace := rfl
@[simp] theorem writeTable_inputs : (writeTable codes s).inputs = s.inputs := rfl
@[simp] theorem writeTable_delivered : (writeTable codes s).delivered = s.delivered := rfl
end

section
variable (s : State)
@[simp] theorem applyReset_wave : (applyReset s).wave = State.reset.wave := rfl
@[simp] theorem applyReset_percent : (applyReset s).percent = State.reset.percent := rfl
@[simp] theorem applyReset_freq : (applyReset s).freq = State.reset.freq := rfl
@[simp] theorem applyReset_streaming : (applyReset s).streaming = State.reset.streaming := rfl
@[simp] theorem applyReset_status : (applyReset s).status = State.reset.status := rfl
@[simp] theorem applyReset_tableLen : (applyReset s).tableLen = State.reset.tableLen := rfl
@[simp] theorem applyReset_table : (applyReset s).table = State.reset.table := rfl
@[simp] theorem applyReset_trace : (applyReset s).trace = State.reset.trace := rfl
@[simp] theorem applyReset_inputs : (applyReset s).inputs = s.inputs := rfl
@[simp] theorem applyReset_delivered : (applyReset s).delivered = State.reset.delivered := rfl
end

/-! The two guarded events change the trace alone. -/

section
variable (r : Reload) (s : State)
@[simp] theorem stopIfStreaming_wave : (stopIfStreaming s).wave = s.wave := by
  unfold stopIfStreaming; split <;> rfl
@[simp] theorem startIfStreaming_wave : (startIfStreaming r s).wave = s.wave := by
  unfold startIfStreaming; split <;> rfl
@[simp] theorem stopIfStreaming_percent : (stopIfStreaming s).percent = s.percent := by
  unfold stopIfStreaming; split <;> rfl
@[simp] theorem startIfStreaming_percent : (startIfStreaming r s).percent = s.percent := by
  unfold startIfStreaming; split <;> rfl
@[simp] theorem stopIfStreaming_freq : (stopIfStreaming s).freq = s.freq := by
  unfold stopIfStreaming; split <;> rfl
@[simp] theorem startIfStreaming_freq : (startIfStreaming r s).freq = s.freq := by
  unfold startIfStreaming; split <;> rfl
@[simp] theorem stopIfStreaming_streaming : (stopIfStreaming s).streaming = s.streaming := by
  unfold stopIfStreaming; split <;> rfl
@[simp] theorem startIfStreaming_streaming : (startIfStreaming r s).streaming = s.streaming := by
  unfold startIfStreaming; split <;> rfl
@[simp] theorem stopIfStreaming_status : (stopIfStreaming s).status = s.status := by
  unfold stopIfStreaming; split <;> rfl
@[simp] theorem startIfStreaming_status : (startIfStreaming r s).status = s.status := by
  unfold startIfStreaming; split <;> rfl
@[simp] theorem stopIfStreaming_tableLen : (stopIfStreaming s).tableLen = s.tableLen := by
  unfold stopIfStreaming; split <;> rfl
@[simp] theorem startIfStreaming_tableLen : (startIfStreaming r s).tableLen = s.tableLen := by
  unfold startIfStreaming; split <;> rfl
@[simp] theorem stopIfStreaming_table : (stopIfStreaming s).table = s.table := by
  unfold stopIfStreaming; split <;> rfl
@[simp] theorem startIfStreaming_table : (startIfStreaming r s).table = s.table := by
  unfold startIfStreaming; split <;> rfl
@[simp] theorem stopIfStreaming_inputs : (stopIfStreaming s).inputs = s.inputs := by
  unfold stopIfStreaming; split <;> rfl
@[simp] theorem startIfStreaming_inputs : (startIfStreaming r s).inputs = s.inputs := by
  unfold startIfStreaming; split <;> rfl
@[simp] theorem stopIfStreaming_delivered : (stopIfStreaming s).delivered = s.delivered := by
  unfold stopIfStreaming; split <;> rfl
@[simp] theorem startIfStreaming_delivered : (startIfStreaming r s).delivered = s.delivered := by
  unfold startIfStreaming; split <;> rfl
@[simp] theorem stopIfStreaming_trace :
    (stopIfStreaming s).trace = s.trace ++ if s.streaming then [.stop] else [] := by
  unfold stopIfStreaming; split <;> simp
@[simp] theorem startIfStreaming_trace :
    (startIfStreaming r s).trace = s.trace ++ if s.streaming then [.start s.tableLen r] else [] := by
  unfold startIfStreaming; split <;> simp
end

/-! The functions of the frequency see only `FREQ`. -/

theorem countOf_congr {s t : State} (h : s.freq = t.freq) : countOf s = countOf t := by
  unfold countOf; rw [h]
@[simp] theorem countOf_setWave (v : BitVec 2) (s : State) : countOf (setWave v s) = countOf s := rfl
@[simp] theorem countOf_setPercent (v : BitVec 7) (s : State) : countOf (setPercent v s) = countOf s := rfl
@[simp] theorem countOf_setStreaming (v : Bool) (s : State) : countOf (setStreaming v s) = countOf s := rfl
@[simp] theorem countOf_setStatus (v : BitVec 2) (s : State) : countOf (setStatus v s) = countOf s := rfl
@[simp] theorem countOf_setTableLen (v : CellIndex) (s : State) : countOf (setTableLen v s) = countOf s := rfl
@[simp] theorem countOf_setTable (v : Memory) (s : State) : countOf (setTable v s) = countOf s := rfl
@[simp] theorem countOf_setInputs (v : List PortInput) (s : State) : countOf (setInputs v s) = countOf s := rfl
@[simp] theorem countOf_setDelivered (v : Option Delivered) (s : State) : countOf (setDelivered v s) = countOf s := rfl
@[simp] theorem countOf_emit (v : SinkEvent) (s : State) : countOf (emit v s) = countOf s := rfl
@[simp] theorem countOf_reject (v : RejectCause) (s : State) : countOf (reject v s) = countOf s := rfl
@[simp] theorem countOf_writeTable (v : List Code) (s : State) : countOf (writeTable v s) = countOf s := rfl
@[simp] theorem countOf_startIfStreaming (v : Reload) (s : State) : countOf (startIfStreaming v s) = countOf s := countOf_congr (by simp)
@[simp] theorem countOf_clearStatus (s : State) : countOf (clearStatus s) = countOf s := rfl
@[simp] theorem countOf_stopIfStreaming (s : State) : countOf (stopIfStreaming s) = countOf s := countOf_congr (by simp)

theorem timerReloadReg_congr {s t : State} (h : s.freq = t.freq) : timerReloadReg s = timerReloadReg t := by
  unfold timerReloadReg; rw [h]
@[simp] theorem timerReloadReg_setWave (v : BitVec 2) (s : State) : timerReloadReg (setWave v s) = timerReloadReg s := rfl
@[simp] theorem timerReloadReg_setPercent (v : BitVec 7) (s : State) : timerReloadReg (setPercent v s) = timerReloadReg s := rfl
@[simp] theorem timerReloadReg_setStreaming (v : Bool) (s : State) : timerReloadReg (setStreaming v s) = timerReloadReg s := rfl
@[simp] theorem timerReloadReg_setStatus (v : BitVec 2) (s : State) : timerReloadReg (setStatus v s) = timerReloadReg s := rfl
@[simp] theorem timerReloadReg_setTableLen (v : CellIndex) (s : State) : timerReloadReg (setTableLen v s) = timerReloadReg s := rfl
@[simp] theorem timerReloadReg_setTable (v : Memory) (s : State) : timerReloadReg (setTable v s) = timerReloadReg s := rfl
@[simp] theorem timerReloadReg_setInputs (v : List PortInput) (s : State) : timerReloadReg (setInputs v s) = timerReloadReg s := rfl
@[simp] theorem timerReloadReg_setDelivered (v : Option Delivered) (s : State) : timerReloadReg (setDelivered v s) = timerReloadReg s := rfl
@[simp] theorem timerReloadReg_emit (v : SinkEvent) (s : State) : timerReloadReg (emit v s) = timerReloadReg s := rfl
@[simp] theorem timerReloadReg_reject (v : RejectCause) (s : State) : timerReloadReg (reject v s) = timerReloadReg s := rfl
@[simp] theorem timerReloadReg_writeTable (v : List Code) (s : State) : timerReloadReg (writeTable v s) = timerReloadReg s := rfl
@[simp] theorem timerReloadReg_startIfStreaming (v : Reload) (s : State) : timerReloadReg (startIfStreaming v s) = timerReloadReg s := timerReloadReg_congr (by simp)
@[simp] theorem timerReloadReg_clearStatus (s : State) : timerReloadReg (clearStatus s) = timerReloadReg s := rfl
@[simp] theorem timerReloadReg_stopIfStreaming (s : State) : timerReloadReg (stopIfStreaming s) = timerReloadReg s := timerReloadReg_congr (by simp)

/-- Two states with equal fields are equal. -/
@[ext] theorem State.ext_fields {s t : State} (h1 : s.wave = t.wave) (h2 : s.percent = t.percent) (h3 : s.freq = t.freq)
    (h4 : s.streaming = t.streaming) (h5 : s.status = t.status) (h6 : s.tableLen = t.tableLen) (h7 : s.table = t.table)
    (h8 : s.trace = t.trace) (h9 : s.inputs = t.inputs) (h10 : s.delivered = t.delivered) : s = t := by
  cases s; cases t; simp_all

end Sys2Proof.Machine
end

