-- ==== Sys2Proof/Laws/Operands.lean ====
section
/-! SUPPORT. The operand checks of SETW, SETP and SETF and the flag bits, each said once. -/

namespace Sys2Proof.Machine

open Sys2Proof.Safety

@[simp] theorem operandValue_eq (arg : Arg) : operandValue arg = arg.toNat := rfl

theorem waveOperandOk_iff (w : Nat) : waveOperandOk w = true ↔ w ≤ 2 := by simp [waveOperandOk]

theorem percentStepOk_iff (q : Nat) : percentStepOk q = true ↔ q % 10 = 0 :=
  decide_eq_true_iff

theorem freqOperandOk_iff (f : Nat) : freqOperandOk f = true ↔ LegalFreq f :=
  Bool.and_eq_true_iff.trans (and_congr decide_eq_true_iff decide_eq_true_iff)

/-- SETP's saturation lands in `[10, 90]` and leaves what is there (R142). -/
theorem saturatePercent_eq (p : Nat) : saturatePercent p = min 90 (max 10 p) := by
  unfold saturatePercent Config.pctMin Config.pctMax
  split <;> [skip; split] <;> omega

/-- A percent that passes SETP's two checks is legal (R22). -/
theorem saturatePercent_legal {p : Nat} (h : percentStepOk (saturatePercent p) = true) :
    LegalPercent (saturatePercent p) := by
  rw [percentStepOk_iff] at h
  exact ⟨by rw [saturatePercent_eq]; omega, by rw [saturatePercent_eq]; omega, h⟩

@[simp] theorem statusWith_ill (v : BitVec 2) : statusWith .ill v = v ||| 1 := rfl
@[simp] theorem statusWith_rej (v : BitVec 2) : statusWith .rej v = v ||| 2 := rfl

/-- Writing back the frequency a state holds changes nothing. -/
@[simp] theorem setFreq_self (s : State) : setFreq s.freq s = s := rfl

end Sys2Proof.Machine
end

