-- ==== Sys2Proof/Laws/Memory.lean ====
section
/-! SUPPORT. Table memory: read after write, frames, and the canonical form, which every operation keeps. -/

namespace Sys2Proof.Machine

@[simp] theorem Memory.read_nil (i : Nat) : Memory.read [] i = none := rfl

theorem Memory.read_cons (c : Cell) (m : Memory) (i : Nat) :
    Memory.read (c :: m) i = if i = c.1 then some c.2 else Memory.read m i := rfl

/-- A read after a write to the same cell gives the code written. -/
@[simp] theorem Memory.read_write_same (m : Memory) (i : Nat) (v : Code) :
    Memory.read (Memory.write m i v) i = some v := by
  induction m with
  | nil => simp [Memory.write, Memory.read]
  | cons c m ih =>
    obtain ⟨j, x⟩ := c
    unfold Memory.write
    split
    · simp [Memory.read]
    · split
      · simp [Memory.read]
      · simp [Memory.read, *]

/-- A write leaves every other cell alone. -/
theorem Memory.read_write_other (m : Memory) {i k : Nat} (v : Code) (h : k ≠ i) :
    Memory.read (Memory.write m i v) k = Memory.read m k := by
  induction m with
  | nil => simp [Memory.write, Memory.read, h]
  | cons c m ih =>
    obtain ⟨j, x⟩ := c
    unfold Memory.write
    split
    · simp [Memory.read, h]
    · split
      · subst_vars; simp [Memory.read, h]
      · simp [Memory.read, ih]

theorem Memory.wfFrom_cons (lo i : Nat) (v : Code) (m : Memory) :
    Memory.wfFrom lo ((i, v) :: m) = true ↔ lo ≤ i ∧ i < Config.tableCap ∧ Memory.wfFrom (i + 1) m = true := by
  simp [Memory.wfFrom, and_assoc]

theorem Memory.wfFrom_mono {lo lo' : Nat} {m : Memory} (h : Memory.wfFrom lo m = true) (hl : lo' ≤ lo) :
    Memory.wfFrom lo' m = true := by
  cases m with
  | nil => rfl
  | cons c m =>
    rw [Memory.wfFrom_cons] at h ⊢
    exact ⟨hl.trans h.1, h.2⟩

/-- Below the lower bound of the canonical form every cell is unwritten. -/
theorem Memory.read_below {lo : Nat} {m : Memory} (h : Memory.wfFrom lo m = true) {i : Nat} (hi : i < lo) :
    Memory.read m i = none := by
  induction m generalizing lo with
  | nil => rfl
  | cons c m ih =>
    rw [Memory.wfFrom_cons] at h
    rw [Memory.read_cons, if_neg (by omega)]
    exact ih h.2.2 (by omega)

/-- A write to a cell of the table space keeps the canonical form. -/
theorem Memory.wfFrom_write {lo : Nat} {m : Memory} (h : Memory.wfFrom lo m = true) {i : Nat} (v : Code)
    (hlo : lo ≤ i) (hcap : i < Config.tableCap) : Memory.wfFrom lo (Memory.write m i v) = true := by
  induction m generalizing lo with
  | nil => simp [Memory.write, Memory.wfFrom, hlo, hcap]
  | cons c m ih =>
    obtain ⟨j, x⟩ := c
    have hc := (Memory.wfFrom_cons ..).1 h
    unfold Memory.write
    split
    · exact (Memory.wfFrom_cons ..).2 ⟨hlo, hcap, (Memory.wfFrom_cons ..).2 ⟨by omega, hc.2⟩⟩
    · split
      · subst_vars; exact (Memory.wfFrom_cons ..).2 ⟨hlo, hcap, hc.2.2⟩
      · exact (Memory.wfFrom_cons ..).2 ⟨hc.1, hc.2.1, ih hc.2.2 (by omega)⟩

theorem Memory.wf_write {m : Memory} (h : Memory.wf m = true) {i : Nat} (v : Code) (hcap : i < Config.tableCap) :
    Memory.wf (Memory.write m i v) = true :=
  Memory.wfFrom_write h v (Nat.zero_le _) hcap

/-- The loop of single writes keeps the canonical form. -/
theorem Memory.wf_writeEach {m : Memory} (h : Memory.wf m = true) (codes : List Code) (i : Nat)
    (hcap : i + codes.length ≤ Config.tableCap) : Memory.wf (Memory.writeEach m i codes) = true := by
  induction codes generalizing m i with
  | nil => exact h
  | cons v codes ih =>
    simp only [List.length_cons] at hcap
    exact ih (Memory.wf_write h v (by omega)) (i + 1) (by omega)

theorem Memory.read_append (m m' : Memory) (i : Nat) :
    Memory.read (m ++ m') i = (Memory.read m i).or (Memory.read m' i) := by
  induction m with
  | nil => simp
  | cons c m ih =>
    rw [List.cons_append, Memory.read_cons, Memory.read_cons, ih]
    split <;> simp

theorem Memory.read_cellsFrom (codes : List Code) (k i : Nat) :
    Memory.read (Memory.cellsFrom k codes) i = if k ≤ i then codes[i - k]? else none := by
  induction codes generalizing k with
  | nil => simp [Memory.cellsFrom]
  | cons v codes ih =>
    rw [Memory.cellsFrom, Memory.read_cons, ih]
    rcases lt_trichotomy i k with h | h | h
    · rw [if_neg (by simp; omega), if_neg (by omega), if_neg (by omega)]
    · subst h; simp
    · rw [if_neg (by simp; omega), if_pos (by omega), if_pos (by omega)]
      obtain ⟨d, rfl⟩ : ∃ d, i = k + 1 + d := ⟨i - (k + 1), by omega⟩
      rw [show k + 1 + d - (k + 1) = d by omega, show k + 1 + d - k = d + 1 by omega]
      rfl

theorem Memory.read_filter_ge (m : Memory) (n i : Nat) :
    Memory.read (m.filter fun c => decide (n ≤ c.1)) i = if n ≤ i then Memory.read m i else none := by
  induction m with
  | nil => simp
  | cons c m ih =>
    by_cases hc : n ≤ c.1
    · rw [List.filter_cons_of_pos (by simpa using hc), Memory.read_cons, Memory.read_cons, ih]
      by_cases hi : i = c.1
      · simp [hi, hc]
      · simp [hi]
    · rw [List.filter_cons_of_neg (by simpa using hc), ih, Memory.read_cons]
      split
      · rw [if_neg (by omega)]
      · rfl

/-- What storing a whole table does, once: the cells below the length hold the codes, the others are as they were. -/
theorem Memory.read_storeAll (m : Memory) (codes : List Code) (i : Nat) :
    Memory.read (Memory.storeAll m codes) i = if i < codes.length then codes[i]? else Memory.read m i := by
  rw [Memory.storeAll, Memory.read_append, Memory.read_cellsFrom, Memory.read_filter_ge]
  by_cases h : i < codes.length
  · simp [h]
  · simp [h, Nat.le_of_not_lt h]

theorem Memory.wfFrom_filter_ge {lo : Nat} {m : Memory} (h : Memory.wfFrom lo m = true) (n : Nat) :
    Memory.wfFrom n (m.filter fun c => decide (n ≤ c.1)) = true := by
  induction m generalizing lo n with
  | nil => rfl
  | cons c m ih =>
    obtain ⟨j, x⟩ := c
    rw [Memory.wfFrom_cons] at h
    by_cases hc : n ≤ j
    · rw [List.filter_cons_of_pos (by simpa using hc), Memory.wfFrom_cons]
      refine ⟨hc, h.2.1, ?_⟩
      have hk : ∀ (lo : Nat) (m : Memory), Memory.wfFrom lo m = true → n ≤ lo →
          (m.filter fun c => decide (n ≤ c.1)) = m := by
        intro lo m
        induction m generalizing lo with
        | nil => intros; rfl
        | cons d m ih =>
          intro hm hl
          obtain ⟨k, y⟩ := d
          rw [Memory.wfFrom_cons] at hm
          rw [List.filter_cons_of_pos (by simp; omega), ih _ hm.2.2 (by omega)]
      rw [hk _ _ h.2.2 (by omega)]
      exact h.2.2
    · rw [List.filter_cons_of_neg (by simpa using hc)]
      exact ih h.2.2 n

theorem Memory.wfFrom_cellsFrom_append (codes : List Code) (k : Nat) (m : Memory)
    (hcap : k + codes.length ≤ Config.tableCap) (hm : Memory.wfFrom (k + codes.length) m = true) :
    Memory.wfFrom k (Memory.cellsFrom k codes ++ m) = true := by
  induction codes generalizing k with
  | nil => simpa [Memory.cellsFrom] using hm
  | cons v codes ih =>
    simp only [List.length_cons] at hcap hm
    rw [Memory.cellsFrom, List.cons_append, Memory.wfFrom_cons]
    refine ⟨le_rfl, by omega, ih (k + 1) (by omega) ?_⟩
    rwa [show k + 1 + codes.length = k + (codes.length + 1) by omega]

/-- Storing a whole table of at most 4000 codes keeps the canonical form. -/
theorem Memory.wf_storeAll {m : Memory} (h : Memory.wf m = true) (codes : List Code)
    (hcap : codes.length ≤ Config.tableCap) : Memory.wf (Memory.storeAll m codes) = true :=
  Memory.wfFrom_cellsFrom_append codes 0 _ (by simpa using hcap) (by simpa using Memory.wfFrom_filter_ge h codes.length)

/-- Two memories in canonical form that read the same are the same data. -/
theorem Memory.eq_of_read_eq {m m' : Memory} {lo : Nat} (h : Memory.wfFrom lo m = true) (h' : Memory.wfFrom lo m' = true)
    (hr : ∀ i, Memory.read m i = Memory.read m' i) : m = m' := by
  induction m generalizing m' lo with
  | nil =>
    cases m' with
    | nil => rfl
    | cons c m' => have := hr c.1; simp [Memory.read_cons] at this
  | cons c m ih =>
    cases m' with
    | nil => have := hr c.1; simp [Memory.read_cons] at this
    | cons d m' =>
      obtain ⟨i, v⟩ := c
      obtain ⟨j, x⟩ := d
      have hc := (Memory.wfFrom_cons ..).1 h
      have hd := (Memory.wfFrom_cons ..).1 h'
      have hij : i = j := by
        rcases lt_trichotomy i j with hl | hl | hl
        · have := hr i
          rw [Memory.read_cons, if_pos rfl, Memory.read_cons, if_neg (by simp; omega),
            Memory.read_below hd.2.2 (by omega)] at this
          simp at this
        · exact hl
        · have := hr j
          rw [Memory.read_cons, if_neg (by simp; omega), Memory.read_below hc.2.2 (by omega), Memory.read_cons,
            if_pos rfl] at this
          simp at this
      subst hij
      have hv : v = x := by simpa [Memory.read_cons] using hr i
      subst hv
      congr 1
      refine ih hc.2.2 hd.2.2 fun k => ?_
      by_cases hk : k = i
      · subst hk
        rw [Memory.read_below hc.2.2 (by omega), Memory.read_below hd.2.2 (by omega)]
      · simpa [Memory.read_cons, hk] using hr k

theorem Memory.filter_cellsFrom (codes : List Code) (k n : Nat) (h : k + codes.length ≤ n) :
    (Memory.cellsFrom k codes).filter (fun c => decide (n ≤ c.1)) = [] := by
  induction codes generalizing k with
  | nil => rfl
  | cons v codes ih =>
    simp only [List.length_cons] at h
    rw [Memory.cellsFrom, List.filter_cons_of_neg (by simp; omega), ih _ (by omega)]

/-- Storing the same table twice is storing it once. -/
@[simp] theorem Memory.storeAll_storeAll (m : Memory) (codes : List Code) :
    Memory.storeAll (Memory.storeAll m codes) codes = Memory.storeAll m codes := by
  simp only [Memory.storeAll, List.filter_append, List.filter_filter,
    Memory.filter_cellsFrom codes 0 codes.length (by omega)]
  simp

/-- The table of the reset state has the canonical form. -/
theorem reset_table_wf : Memory.wf State.reset.table = true := rfl

end Sys2Proof.Machine
end

