-- ==== Sys2Proof/Laws/Synthesis.lean ====
section
/-! SUPPORT. What the shared operations can do, each said once: bands, `synthesize`, `Regenerate`, `ApplyFrequency`. -/

namespace Sys2Proof.Machine

open Sys2Proof.Safety

/-! ## Outcomes -/

@[simp] theorem andThen_next (s : State) (k : State → Host.Outcome State Fault Refusal) :
    andThen (.next s) k = k s := rfl

/-- If `andThen` answers a next state, the first part did. -/
theorem andThen_eq_next {o : Host.Outcome State Fault Refusal} {k : State → Host.Outcome State Fault Refusal} {t : State} :
    andThen o k = .next t ↔ ∃ s, o = .next s ∧ k s = .next t := by
  cases o <;> simp [andThen]

/-! ## Bands -/

/-- `bandCount` takes the eight band counts and no other value (R122 (b)). -/
theorem bandCount_mem (f : Nat) : bandCount f ∈ BandCounts := by
  unfold bandCount BandCounts
  repeat' split
  all_goals simp

theorem bandCount_pos (f : Nat) : 0 < bandCount f := by
  have h : ∀ n ∈ BandCounts, 0 < n := by decide
  exact h _ (bandCount_mem f)

theorem bandCount_le_cap (f : Nat) : bandCount f ≤ Config.tableCap := by
  have h : ∀ n ∈ BandCounts, n ≤ Config.tableCap := by decide
  exact h _ (bandCount_mem f)

/-- Every band count is a multiple of 10 (R122 (b)). -/
theorem bandCount_mod_ten (f : Nat) : bandCount f % 10 = 0 := by
  have h : ∀ n ∈ BandCounts, n % 10 = 0 := by decide
  exact h _ (bandCount_mem f)

/-- Every band count divides 4000 (R122 (b)). -/
theorem bandCount_divides (f : Nat) : 4000 % bandCount f = 0 := by
  have h : ∀ n ∈ BandCounts, 4000 % n = 0 := by decide
  exact h _ (bandCount_mem f)

/-- A band count fits `TABLE_LEN` (R122 (b)): its 12 bits hold it. -/
@[simp] theorem bandCount_mod_width (f : Nat) : bandCount f % 4096 = bandCount f := by
  have h : bandCount f ≤ 4000 := bandCount_le_cap f
  exact Nat.mod_eq_of_lt (by omega)

@[simp] theorem countOf_mod_width (s : State) : countOf s % 4096 = countOf s := bandCount_mod_width _

theorem toNat_ofNat_bandCount (f : Nat) : (BitVec.ofNat 12 (bandCount f)).toNat = bandCount f :=
  bandCount_mod_width f

theorem toNat_ofNat_countOf (s : State) : (BitVec.ofNat 12 (countOf s)).toNat = countOf s :=
  countOf_mod_width s

/-! ## synthesize -/

/-- If `synthesize` has a value: the precondition holds and the codes are those of `cellCode`. -/
theorem synthesize_eq_ok {w : Waveform} {p n : Nat} {codes : List Code} :
    synthesize w p n = .ok codes ↔ synthesizable w p n = true ∧ codes = (List.range n).map (cellCode w p n) := by
  unfold synthesize
  by_cases h : synthesizable w p n = true
  · rw [if_pos h, Except.ok.injEq]
    exact ⟨fun e => ⟨h, e.symm⟩, fun e => e.2.symm⟩
  · rw [if_neg h]
    exact ⟨fun e => absurd e (by simp), fun e => absurd e.1 h⟩

theorem length_of_synthesize {w : Waveform} {p n : Nat} {codes : List Code} (h : synthesize w p n = .ok codes) :
    codes.length = n := by
  rw [(synthesize_eq_ok.1 h).2]; simp

/-- The cells of a synthesized table, one by one. -/
theorem getElem?_of_synthesize {w : Waveform} {p n : Nat} {codes : List Code} (h : synthesize w p n = .ok codes)
    {i : Nat} (hi : i < n) : codes[i]? = some (cellCode w p n i) := by
  rw [(synthesize_eq_ok.1 h).2]; simp [hi]

/-- A legal percent splits a band count into whole cells: `R = P * N / 100` (R104). -/
theorem rampRise_legal {p n : Nat} (hp : p % 10 = 0) (hn : n % 10 = 0) : rampRise p n = (p / 10) * (n / 10) := by
  obtain ⟨d, rfl⟩ := Nat.dvd_of_mod_eq_zero hp
  obtain ⟨m, rfl⟩ := Nat.dvd_of_mod_eq_zero hn
  have e : 10 * d * (10 * m) = 100 * (d * m) := by ring
  rw [rampRise, roundHundredth, e, Nat.mul_div_cancel_left _ (by norm_num), Nat.mul_div_cancel_left _ (by norm_num)]
  omega

/-- R113: both parts of an admitted ramp hold a cell. -/
theorem rampParts_legal {p : Nat} (hp : LegalPercent p) (f : Nat) :
    1 ≤ rampRise p (bandCount f) ∧ 1 ≤ rampFall p (bandCount f) := by
  obtain ⟨h1, h2, h3⟩ := hp
  have hm := bandCount_mod_ten f
  have hpos := bandCount_pos f
  rw [rampFall, rampRise_legal h3 hm]
  obtain ⟨m, hm'⟩ := Nat.dvd_of_mod_eq_zero hm
  obtain ⟨d, hd⟩ := Nat.dvd_of_mod_eq_zero h3
  rw [hm', hd, Nat.mul_div_cancel_left _ (by norm_num), Nat.mul_div_cancel_left _ (by norm_num)]
  have hd1 : 1 ≤ d := by omega
  have hd9 : d ≤ 9 := by omega
  have hm1 : 1 ≤ m := by omega
  constructor
  · nlinarith
  · have hle : d * m ≤ 9 * m := Nat.mul_le_mul_right m hd9
    generalize d * m = x at hle ⊢
    omega

/-- R113: every admitted triple satisfies the precondition. -/
theorem synthesizable_legal (w : Waveform) {p : Nat} (hp : LegalPercent p) (f : Nat) :
    synthesizable w p (bandCount f) = true := by
  cases w
  · rfl
  · rfl
  · simpa [synthesizable] using rampParts_legal hp f

/-! ## The waveform codes -/

/-- The codes 0, 1, 2 are waveforms (R21). -/
theorem waveformOfCode_legal {w : BitVec 2} (h : w.toNat ≤ 2) : ∃ v, waveformOfCode w = some v := by
  have hall : ∀ w : BitVec 2, w.toNat ≤ 2 → (waveformOfCode w).isSome = true := by decide
  exact Option.isSome_iff_exists.1 (hall w h)

theorem waveformOfCode_some {w : BitVec 2} {v : Waveform} (h : waveformOfCode w = some v) : w = codeOfWaveform v := by
  revert h; revert v; revert w; decide

/-! ## Regenerate -/

/-- All that `Regenerate` can do when it answers a next state (R112). -/
theorem regenerate_eq_next {s t : State} :
    regenerate s = .next t ↔
      ∃ w codes, waveformOfCode s.wave = some w ∧ synthesize w s.percent.toNat (countOf s) = .ok codes ∧
        t = writeTable codes s := by
  unfold regenerate
  cases hw : waveformOfCode s.wave with
  | none => simp
  | some w =>
    cases hc : synthesize w s.percent.toNat (countOf s) with
    | error r => simp [hc]
    | ok codes => simp [hc, eq_comm]

/-- `Regenerate` in a state whose registers are legal has a value (R113). -/
theorem regenerate_legal {s : State} (hw : s.wave.toNat ≤ 2) (hp : LegalPercent s.percent.toNat) :
    ∃ w codes, waveformOfCode s.wave = some w ∧ synthesize w s.percent.toNat (countOf s) = .ok codes ∧
      regenerate s = .next (writeTable codes s) := by
  obtain ⟨w, hw⟩ := waveformOfCode_legal hw
  have hs : synthesize w s.percent.toNat (countOf s) = .ok ((List.range (countOf s)).map (cellCode w s.percent.toNat (countOf s))) :=
    synthesize_eq_ok.2 ⟨synthesizable_legal w hp _, rfl⟩
  exact ⟨w, _, hw, hs, regenerate_eq_next.2 ⟨w, _, hw, hs, rfl⟩⟩

/-- What the table holds after it is written with the codes of one `synthesize`. -/
theorem writeTable_cells {s : State} {w : Waveform} {p : Nat} {codes : List Code}
    (h : synthesize w p (countOf s) = .ok codes) :
    (writeTable codes s).tableLen.toNat = countOf s ∧
      (∀ i, i < countOf s → Memory.read (writeTable codes s).table i = some (cellCode w p (countOf s) i)) ∧
      ∀ i, countOf s ≤ i → Memory.read (writeTable codes s).table i = Memory.read s.table i := by
  have hl := length_of_synthesize h
  refine ⟨?_, fun i hi => ?_, fun i hi => ?_⟩
  · rw [writeTable_tableLen, hl, toNat_ofNat_countOf]
  · rw [writeTable_table, Memory.read_storeAll, if_pos (by omega), getElem?_of_synthesize h hi]
  · rw [writeTable_table, Memory.read_storeAll, if_neg (by omega)]

/-! ## ApplyFrequency -/

/-- All that `ApplyFrequency` can do when it answers a next state (R127): nothing but the two events where the count
is unchanged, and otherwise a table written between them. -/
theorem applyFrequency_eq_next {s t : State} (h : applyFrequency s = .next t) :
    (countOf s = s.tableLen.toNat ∧ t = startIfStreaming (timerReloadReg s) (stopIfStreaming s)) ∨
    (countOf s ≠ s.tableLen.toNat ∧ ∃ w codes, waveformOfCode s.wave = some w ∧
      synthesize w s.percent.toNat (countOf s) = .ok codes ∧
      t = startIfStreaming (timerReloadReg s) (writeTable codes (stopIfStreaming s))) := by
  unfold applyFrequency at h
  obtain ⟨u, hu, ht⟩ := andThen_eq_next.1 h
  injection ht with ht
  unfold regenerateIfCountChanged at hu
  split at hu
  · rename_i hne
    obtain ⟨w, codes, hw, hc, rfl⟩ := regenerate_eq_next.1 hu
    exact .inr ⟨by simpa using hne, w, codes, by simpa using hw, by simpa using hc, ht.symm⟩
  · rename_i hne
    injection hu with hu
    subst hu
    exact .inl ⟨by simpa using hne, ht.symm⟩

/-- `ApplyFrequency` in a state whose waveform and percent are legal completes. -/
theorem applyFrequency_legal {s : State} (hw : s.wave.toNat ≤ 2) (hp : LegalPercent s.percent.toNat) :
    ∃ t, applyFrequency s = .next t := by
  unfold applyFrequency regenerateIfCountChanged
  split
  · obtain ⟨w, codes, -, -, h⟩ := regenerate_legal (s := stopIfStreaming s) (by simpa using hw) (by simpa using hp)
    exact ⟨_, by rw [h]; rfl⟩
  · exact ⟨_, rfl⟩

/-! ## The sink -/

@[simp] theorem sinkAfter_nil : sinkAfter [] = none := rfl

@[simp] theorem sinkAfter_stop (l : List SinkEvent) : sinkAfter (l ++ [.stop]) = none := by
  rw [sinkAfter, List.getLast?_concat]

@[simp] theorem sinkAfter_start (l : List SinkEvent) (n : CellIndex) (r : Reload) :
    sinkAfter (l ++ [.start n r]) = some (n, r) := by
  rw [sinkAfter, List.getLast?_concat]

@[simp] theorem sinkPhase_nil : sinkPhase [] = some false := rfl

/-- One event more. -/
theorem sinkPhase_concat (l : List SinkEvent) (e : SinkEvent) : sinkPhase (l ++ [e]) = phaseAfter (sinkPhase l) e := by
  rw [sinkPhase, List.foldl_append]; rfl

/-- After the two events of a refresh the sink runs with the new length and reload. -/
@[simp] theorem sinkAfter_refresh (l : List SinkEvent) (n : CellIndex) (r : Reload) :
    sinkAfter (l ++ [.stop, .start n r]) = some (n, r) := by
  rw [show l ++ [SinkEvent.stop, .start n r] = (l ++ [.stop]) ++ [.start n r] by simp, sinkAfter_start]

theorem sinkPhase_refresh (l : List SinkEvent) (n : CellIndex) (r : Reload) :
    sinkPhase (l ++ [.stop, .start n r]) = phaseAfter (phaseAfter (sinkPhase l) .stop) (.start n r) := by
  rw [show l ++ [SinkEvent.stop, .start n r] = (l ++ [.stop]) ++ [.start n r] by simp, sinkPhase_concat, sinkPhase_concat]

/-- On a trace whose events alternate, the sink runs exactly if the last event is a `Start`. -/
theorem sinkPhase_of_alternates {l : List SinkEvent} (h : Alternates l) : sinkPhase l = some (sinkAfter l).isSome := by
  unfold Alternates at h
  induction l using List.reverseRecOn with
  | nil => rfl
  | append_singleton l e ih =>
    rw [sinkPhase_concat] at h ⊢
    have hl : sinkPhase l ≠ none := by intro h'; rw [h'] at h; exact h rfl
    rw [ih hl] at h ⊢
    cases e with
    | stop => rw [sinkAfter_stop]; cases hs : (sinkAfter l).isSome <;> rw [hs] at h <;> simp [phaseAfter] at h ⊢
    | start n r => rw [sinkAfter_start]; cases hs : (sinkAfter l).isSome <;> rw [hs] at h <;> simp [phaseAfter] at h ⊢

end Sys2Proof.Machine
end

