-- ==== Sys2Proof/Laws/Exec.lean ====
section
/-! SUPPORT. The inversion of `exec`: all that a command can do when it answers a next state, said once. -/

namespace Sys2Proof.Machine

open Sys2Proof.Safety

/-- All that a command can do, guards included (R141 to R150). The table written by SYNTH and START is one value of
`synthesize`; for SETF and APPLYF see `applyFrequency_eq_next`. -/
theorem exec_eq_next {i : Instr} {s t : State} (h : exec i s = .next t) :
    (i = .nop ∧ t = s) ∨
    (∃ w, i = .setw w ∧
      ((w.toNat ≤ 2 ∧ t = setWave (BitVec.ofNat 2 w.toNat) s) ∨ (2 < w.toNat ∧ t = reject .rej s))) ∨
    (∃ p, i = .setp p ∧
      ((¬OperandRejected (.setp p) ∧ t = setPercent (BitVec.ofNat 7 (saturatePercent p.toNat)) s) ∨
        (OperandRejected (.setp p) ∧ t = reject .rej s))) ∨
    (∃ f, i = .setf f ∧
      ((LegalFreq f.toNat ∧ applyFrequency (setFreq (BitVec.ofNat 20 f.toNat) s) = .next t) ∨
        (OperandRejected (.setf f) ∧ t = reject .rej s))) ∨
    (i = .applyf ∧ applyFrequency s = .next t) ∨
    (i = .synth ∧ ∃ w codes, waveformOfCode s.wave = some w ∧
      synthesize w s.percent.toNat (countOf s) = .ok codes ∧
      t = startIfStreaming (timerReloadReg s) (writeTable codes (stopIfStreaming s))) ∨
    (i = .start ∧ ∃ w codes, waveformOfCode s.wave = some w ∧
      synthesize w s.percent.toNat (countOf s) = .ok codes ∧
      t = emit (.start (BitVec.ofNat 12 codes.length) (timerReloadReg s))
        (setStreaming true (writeTable codes (stopIfStreaming s)))) ∨
    (i = .stop ∧ ((s.streaming = true ∧ t = setStreaming false (emit .stop s)) ∨ (s.streaming = false ∧ t = s))) ∨
    (i = .clrst ∧ t = clearStatus s) := by
  cases i with
  | nop => cases h; simp
  | setw w =>
    simp only [exec, execSetw] at h
    split at h <;> cases h
    · rename_i hk; have := (waveOperandOk_iff _).1 hk; simp at this; simp [this]
    · rename_i hk; rw [waveOperandOk_iff] at hk; simp at hk; simp; right; omega
  | setp p =>
    simp only [exec, execSetp] at h
    split at h <;> cases h <;> rename_i hk <;> rw [percentStepOk_iff, saturatePercent_eq] at hk <;> simp only [operandValue] at hk
    · simp [OperandRejected]; left; omega
    · simp [OperandRejected]; right; omega
  | setf f =>
    simp only [exec, execSetf] at h
    split at h <;> rename_i hk
    · have := (freqOperandOk_iff _).1 hk
      simp only [operandValue] at this; simp; exact .inl ⟨this, h⟩
    · cases h; rw [freqOperandOk_iff] at hk; simp [OperandRejected]; right; unfold LegalFreq at hk; simp at hk; omega
  | applyf => simp; exact h
  | synth =>
    simp only [exec, execSynth, andThen_eq_next] at h
    obtain ⟨u, hu, e⟩ := h; injection e with e; subst e
    obtain ⟨w, c, hw, hc, rfl⟩ := regenerate_eq_next.1 hu
    simp at hw hc
    simp; exact ⟨w, hw, c, hc, rfl⟩
  | start =>
    simp only [exec, execStart, andThen_eq_next] at h
    obtain ⟨u, hu, e⟩ := h; injection e with e; subst e
    obtain ⟨w, c, hw, hc, rfl⟩ := regenerate_eq_next.1 hu
    simp at hw hc
    simp; exact ⟨w, hw, c, hc, rfl⟩
  | stop => simp only [exec, execStop] at h; split at h <;> cases h <;> simp_all
  | clrst => cases h; simp

end Sys2Proof.Machine
end

