-- ==== Sys2Proof/Laws/PerInstr.lean ====
section
/-! SUPPORT. The statements made per instruction: one family, one lemma per constructor of `Instr`. -/

/-- The word of an instruction belongs to its own row of the opcode table (30_encoding.md R73), and to no other row. -/
def Sys2Proof.Laws.OneRow.Statement (i : Sys2Proof.Instr) : Prop :=
  ∀ r ∈ Sys2Proof.opcodeRows, r.accepts (Sys2Proof.encode i) = true ↔ r.mnemonic = i.mnemonic

namespace Sys2Proof.Laws

/-- The opcode field of a word put together from its two fields (R72). -/
theorem opField_append (op : Opcode) (arg : Arg) : opField (op ++ arg : Word) = op := by
  apply BitVec.eq_of_getLsbD_eq
  intro j hj
  rw [opField, BitVec.getLsbD_extractLsb', BitVec.getLsbD_append]
  simp [hj]

/-- What the mask `0xFF000000` leaves of such a word. -/
theorem masked_op (op : Opcode) (arg : Arg) : ((op ++ arg : Word) &&& (0xFF000000 : Word)) = (op ++ (0 : Arg) : Word) := by
  apply BitVec.eq_of_getLsbD_eq
  intro j hj
  rw [BitVec.getLsbD_and, BitVec.getLsbD_append, BitVec.getLsbD_append]
  have hm : ∀ j : Fin 32, (0xFF000000 : Word).getLsbD j = decide (24 ≤ j.val) := by decide
  have hj' := hm ⟨j, hj⟩
  simp only at hj'
  rw [hj']
  by_cases h : j < 24
  · simp [h]
  · simp [h]; omega

/-- The mask of all ones leaves the word. -/
theorem masked_all (w : Word) : (w &&& (0xFFFFFFFF : Word)) = w := by
  have h : (0xFFFFFFFF : Word) = BitVec.allOnes 32 := by decide
  rw [h, BitVec.and_allOnes]

/-- Words with different opcodes differ. -/
theorem beq_of_op_ne {op op' : Opcode} {arg arg' : Arg} (h : op ≠ op') :
    ((op ++ arg : Word) == (op' ++ arg' : Word)) = false := by
  apply beq_false_of_ne
  intro e
  exact h (by simpa only [opField_append] using congrArg opField e)

/-- The rows whose mask is all ones hold one word each. -/
theorem accepts_fixed (m : Mnemonic) (op op' : Opcode) (b : Word) (hb : b = (op' ++ (0 : Arg) : Word)) (h : op ≠ op')
    (w : Arg) : (OpcodeRow.mk m b 0xFFFFFFFF).accepts (op ++ w : Word) = false := by
  simp only [OpcodeRow.accepts, masked_all, hb]
  exact beq_of_op_ne h

/-- The rows with an operand hold the words of one opcode. -/
theorem accepts_operand (m : Mnemonic) (op op' : Opcode) (b : Word) (hb : b = (op' ++ (0 : Arg) : Word)) (w : Arg) :
    (OpcodeRow.mk m b 0xFF000000).accepts (op ++ w : Word) = decide (op = op') := by
  simp only [OpcodeRow.accepts, masked_op, hb]
  by_cases h : op = op'
  · subst h; simp
  · rw [beq_of_op_ne h]; simp [h]

theorem OneRow.nop : OneRow.Statement .nop := by unfold OneRow.Statement; decide
theorem OneRow.applyf : OneRow.Statement .applyf := by unfold OneRow.Statement; decide
theorem OneRow.synth : OneRow.Statement .synth := by unfold OneRow.Statement; decide
theorem OneRow.start : OneRow.Statement .start := by unfold OneRow.Statement; decide
theorem OneRow.stop : OneRow.Statement .stop := by unfold OneRow.Statement; decide
theorem OneRow.clrst : OneRow.Statement .clrst := by unfold OneRow.Statement; decide

/-- A word with opcode 1, 2 or 3, whatever its operand, belongs to the one row of that opcode. -/
theorem accepts_operand_op (op : Opcode) (hop : op = 1 ∨ op = 2 ∨ op = 3) (w : Arg) :
    ∀ r ∈ opcodeRows, r.accepts (op ++ w : Word) = decide (opcodeOf r.mnemonic = op) := by
  have hne : op ≠ 0 ∧ op ≠ 4 ∧ op ≠ 5 ∧ op ≠ 6 ∧ op ≠ 7 ∧ op ≠ 8 := by rcases hop with rfl | rfl | rfl <;> decide
  intro r hr
  simp only [opcodeRows, List.mem_cons, List.not_mem_nil, or_false] at hr
  rcases hr with rfl | rfl | rfl | rfl | rfl | rfl | rfl | rfl | rfl
  · rw [accepts_fixed _ op 0 _ (by decide) hne.1]; exact (decide_eq_false hne.1.symm).symm
  · rw [accepts_operand _ op 1 _ (by decide)]; simp [opcodeOf, eq_comm]
  · rw [accepts_operand _ op 2 _ (by decide)]; simp [opcodeOf, eq_comm]
  · rw [accepts_operand _ op 3 _ (by decide)]; simp [opcodeOf, eq_comm]
  · rw [accepts_fixed _ op 4 _ (by decide) hne.2.1]; exact (decide_eq_false hne.2.1.symm).symm
  · rw [accepts_fixed _ op 5 _ (by decide) hne.2.2.1]; exact (decide_eq_false hne.2.2.1.symm).symm
  · rw [accepts_fixed _ op 6 _ (by decide) hne.2.2.2.1]; exact (decide_eq_false hne.2.2.2.1.symm).symm
  · rw [accepts_fixed _ op 7 _ (by decide) hne.2.2.2.2.1]; exact (decide_eq_false hne.2.2.2.2.1.symm).symm
  · rw [accepts_fixed _ op 8 _ (by decide) hne.2.2.2.2.2]; exact (decide_eq_false hne.2.2.2.2.2.symm).symm

theorem opcodeOf_eq_iff : ∀ m m' : Mnemonic, opcodeOf m = opcodeOf m' ↔ m = m' := by
  intro m m'; cases m <;> cases m' <;> decide

theorem OneRow.setw (w : Arg) : OneRow.Statement (.setw w) := fun r hr => by
  rw [← opcodeOf_eq_iff]; exact (Bool.eq_iff_iff.1 (accepts_operand_op 1 (by decide) w r hr)).trans decide_eq_true_iff
theorem OneRow.setp (p : Arg) : OneRow.Statement (.setp p) := fun r hr => by
  rw [← opcodeOf_eq_iff]; exact (Bool.eq_iff_iff.1 (accepts_operand_op 2 (by decide) p r hr)).trans decide_eq_true_iff
theorem OneRow.setf (f : Arg) : OneRow.Statement (.setf f) := fun r hr => by
  rw [← opcodeOf_eq_iff]; exact (Bool.eq_iff_iff.1 (accepts_operand_op 3 (by decide) f r hr)).trans decide_eq_true_iff

end Sys2Proof.Laws
end

