-- ==== Sys2Proof/Laws/Ports.lean ====
section
/-! SUPPORT. The inversion of a step: all that one move of the outside world can do, said once. -/

namespace Sys2Proof.Machine

/-- All that a step can do: keep the state while nothing is pending, or serve the first move (R184, log 1). -/
theorem step_eq_next {s t : State} :
    step s = .next t ↔
      (s.inputs = [] ∧ t = s) ∨ ∃ x rest, s.inputs = x :: rest ∧ serve x (setInputs rest s) = .next t := by
  unfold step serveNext
  cases h : s.inputs with
  | nil => simp [eq_comm]
  | cons x rest => simp

/-- A command word: rejected or executed (R140, R78). -/
theorem takeCommand_eq_next {w : Word} {s t : State} :
    takeCommand w s = .next t ↔
      (∃ e, decode w = .error e ∧ t = reject .ill s) ∨ ∃ i, decode w = .ok i ∧ exec i s = .next t := by
  unfold takeCommand
  cases h : decode w with
  | error e => simp [eq_comm]
  | ok i => simp

/-- A table read puts a cell on the port exactly when `TableRead` has a value (R54). -/
theorem deliverCell_eq_next {r : Except Fault PortCell} {s t : State} :
    deliverCell r s = .next t ↔ ∃ v, r = .ok v ∧ t = setDelivered (some (.cell v)) s := by
  cases r with
  | error f => simp [deliverCell]
  | ok v => simp [deliverCell, eq_comm]

/-- `TableRead` has a value exactly below `TABLE_LEN`, at a written cell (R54). -/
theorem tableRead_eq_ok {i : CellIndex} {s : State} {v : PortCell} :
    tableRead i s = .ok v ↔
      i.toNat < s.tableLen.toNat ∧ ∃ c, Memory.read s.table i.toNat = some c ∧ v = c.setWidth 16 := by
  unfold tableRead
  by_cases h : s.tableLen.toNat ≤ i.toNat
  · simp [h, Nat.not_lt.2 h]
  · rw [if_neg h]
    cases hr : Memory.read s.table i.toNat with
    | none => simp
    | some c => simp [Nat.not_le.1 h, eq_comm]

/-- All that one move can do when it answers a next state. -/
theorem serve_eq_next {x : PortInput} {s t : State} (h : serve x s = .next t) :
    (∃ w, x = .command w ∧ takeCommand w s = .next t) ∨
    (∃ a, x = .readRegister a ∧ t = setDelivered (some (.register (registerValue a s))) s) ∨
    (∃ i v, x = .hostReadCell i ∧ s.streaming = false ∧ tableRead i s = .ok v ∧
      t = setDelivered (some (.cell v)) s) ∨
    (∃ i v len r, x = .sinkReadCell i ∧ sinkAfter s.trace = some (len, r) ∧ i.toNat < len.toNat ∧
      tableRead i s = .ok v ∧ t = setDelivered (some (.cell v)) s) ∨
    (x = .reset ∧ t = applyReset s) := by
  cases x with
  | command w => exact .inl ⟨w, rfl, h⟩
  | readRegister a => cases h; exact .inr (.inl ⟨a, rfl, rfl⟩)
  | hostReadCell i =>
    simp only [serve, hostReadCell] at h
    split at h
    · cases h
    · rename_i hs
      obtain ⟨v, hv, ht⟩ := deliverCell_eq_next.1 h
      exact .inr (.inr (.inl ⟨i, v, rfl, by simpa using hs, hv, ht⟩))
  | sinkReadCell i =>
    simp only [serve, sinkReadCell] at h
    split at h
    · cases h
    · rename_i len r hs
      split at h
      · cases h
      · rename_i hl
        obtain ⟨v, hv, ht⟩ := deliverCell_eq_next.1 h
        exact .inr (.inr (.inr (.inl ⟨i, v, len, r, rfl, hs, Nat.not_le.1 hl, hv, ht⟩)))
  | reset => cases h; exact .inr (.inr (.inr (.inr ⟨rfl, rfl⟩)))

end Sys2Proof.Machine
end

