-- ==== Sys2Proof/Laws/SineExact.lean ====
section
/-! SUPPORT. What the parts of the exact sine compute, each said once: `halfTurns` counts half turns, `peakDistance` is the
angle from the peak, `sineAtLeast` compares the real sine, and `largestPassing` searches. -/

namespace Sys2Proof.Machine

open Real

/-- Inside `t` and `t + 2` half turns, the sine has the sign of half turn `t` exactly before half turn `t + 1`. -/
theorem sin_sign_in_half_turn {x : ℝ} {t : ℕ} (h0 : t * π < x) (h2 : x < (t + 2) * π) :
    0 < (-1 : ℝ) ^ t * sin x ↔ x < (t + 1) * π := by
  rw [← sin_sub_nat_mul_pi]
  constructor
  · intro h
    by_contra hx
    have : sin (x - t * π - 2 * π) ≤ 0 := sin_nonpos_of_nonpos_of_neg_pi_le (by linarith) (by linarith)
    rw [sin_sub_two_pi] at this
    linarith
  · intro h
    exact sin_pos_of_pos_of_lt_pi (by linarith) (by linarith)

/-- The invariant of the loop: `cur` and `next` carry the sines of `k` and `k + 1` times the angle, and `turns` half turns
are complete after `k` turns. -/
theorem halfTurnsFrom_spec {a : ℤ} {α : ℝ} (hα : cos α * 4095 = a) (h0 : 0 < α) (hπ : α < π) :
    ∀ (steps k : ℕ) (cur next : ℤ) (turns : ℕ), cur * sin α * 4095 = 4095 ^ k * sin (k * α) →
      next * sin α = 4095 ^ k * sin ((k + 1) * α) → turns * π ≤ k * α → k * α < (turns + 1) * π →
      (halfTurnsFrom a cur next turns steps : ℝ) * π ≤ (k + steps) * α ∧
        (k + steps) * α < (halfTurnsFrom a cur next turns steps + 1) * π := by
  intro steps
  have hs : 0 < sin α := sin_pos_of_pos_of_lt_pi h0 hπ
  induction steps with
  | zero => intro k cur next t _ _ h3 h4; simpa [halfTurnsFrom] using ⟨h3, h4⟩
  | succ steps ih =>
    intro k cur next t h1 h2 h3 h4
    have hcur : (next : ℝ) * sin α * 4095 = 4095 ^ (k + 1) * sin ((k + 1 : ℕ) * α) := by
      rw [h2]; push_cast; ring
    have hnext : ((2 * a * next - (Config.codeMax : ℤ) ^ 2 * cur : ℤ) : ℝ) * sin α =
        4095 ^ (k + 1) * sin (((k + 1 : ℕ) + 1) * α) := by
      have e : sin (((k + 1 : ℕ) + 1 : ℝ) * α) = 2 * cos α * sin ((k + 1) * α) - sin (k * α) := by
        have e1 : ((k + 1 : ℕ) + 1 : ℝ) * α = (k + 1) * α + α := by push_cast; ring
        have e2 : (k : ℝ) * α = (k + 1) * α - α := by ring
        rw [e1, e2, sin_add, sin_sub]; ring
      rw [e]
      push_cast
      rw [← hα]
      linear_combination (2 * cos α * 4095) * h2 - 4095 * h1
    have hgo : t * π < (k + 1) * α := by linarith
    have hlt : (k + 1) * α < (t + 2) * π := by linarith
    have hsign : 0 < (if t % 2 = 0 then next else -next) ↔ (k + 1) * α < (t + 1) * π := by
      rw [← sin_sign_in_half_turn hgo hlt]
      have hpos : 0 < ((if t % 2 = 0 then next else -next : ℤ) : ℝ) * sin α ↔
          0 < (-1 : ℝ) ^ t * sin ((k + 1) * α) := by
        have e : ((if t % 2 = 0 then next else -next : ℤ) : ℝ) * sin α =
            4095 ^ k * ((-1 : ℝ) ^ t * sin ((k + 1) * α)) := by
          rcases Nat.even_or_odd t with ht | ht
          · rw [if_pos (Nat.even_iff.1 ht), ht.neg_one_pow, h2]; ring
          · rw [if_neg (by rw [Nat.odd_iff.1 ht]; decide), ht.neg_one_pow]; push_cast; rw [neg_mul, h2]; ring
        rw [e]
        exact mul_pos_iff_of_pos_left (by positivity)
      rw [← hpos, mul_pos_iff_of_pos_right hs, Int.cast_pos]
    have hstep := ih (k + 1) next _
      (if 0 < (if t % 2 = 0 then next else -next) then t else t + 1) hcur hnext
    have e : ((k + (steps + 1 : ℕ) : ℝ)) = ((k + 1 : ℕ) + steps : ℝ) := by push_cast; ring
    rw [e, halfTurnsFrom]
    by_cases hd : (k + 1) * α < (t + 1) * π
    · rw [if_pos (hsign.2 hd)] at hstep ⊢
      exact hstep (by push_cast; linarith) (by push_cast; linarith)
    · rw [if_neg (fun h => hd (hsign.1 h))] at hstep ⊢
      exact hstep (by push_cast; linarith) (by push_cast; linarith)

/-- `halfTurns` is the floor of `m * arccos (a / 4095) / pi`. -/
theorem halfTurns_spec {a : ℤ} (hlo : -4095 < a) (hhi : a < 4095) (m : ℕ) :
    (halfTurns a m : ℝ) * π ≤ m * arccos (a / 4095) ∧ m * arccos (a / 4095) < (halfTurns a m + 1) * π := by
  have hlo' : (-4095 : ℝ) < a := by exact_mod_cast hlo
  have hhi' : (a : ℝ) < 4095 := by exact_mod_cast hhi
  have hc : cos (arccos (a / 4095)) * 4095 = a := by
    rw [cos_arccos (by linarith) (by linarith)]; ring
  have h0 : 0 < arccos (a / 4095) := arccos_pos.2 (by linarith)
  have hπ : arccos (a / 4095) < π := by
    refine lt_of_le_of_ne (arccos_le_pi _) fun h => ?_
    rw [h, cos_pi] at hc; linarith
  have := halfTurnsFrom_spec hc h0 hπ m 0 0 1 0 (by simp) (by simp) (by simp) (by simpa using pi_pos)
  simpa [halfTurns] using this

/-- Cell `i` lies `pi * peakDistance / (2 * n)` from the peak. -/
theorem peakDistance_spec {n i : ℕ} (hi : i < n) :
    peakDistance n i ≤ 2 * n ∧ sin (2 * π * i / n) = cos (π * peakDistance n i / (2 * n)) := by
  have hn : (n : ℝ) ≠ 0 := by have : 0 < n := by omega
                              positivity
  refine ⟨by unfold peakDistance; dsimp only; split <;> split <;> omega, ?_⟩
  rw [← cos_pi_div_two_sub]
  have base : π / 2 - 2 * π * i / n = π * ((n : ℝ) - 4 * i) / (2 * n) := by field_simp; ring
  rw [base]
  unfold peakDistance
  dsimp only
  by_cases h : 4 * i ≤ n
  · rw [if_pos h, if_pos (by omega), Nat.cast_sub h]; push_cast; rfl
  · rw [if_neg h]
    by_cases h2 : 4 * i - n ≤ 2 * n
    · rw [if_pos h2, Nat.cast_sub (by omega), ← cos_neg]; push_cast; congr 1; ring
    · rw [if_neg h2, Nat.cast_sub (by omega), Nat.cast_sub (by omega), ← cos_add_two_pi]
      push_cast; congr 1; field_simp; ring

/-- The comparison: the code of the cell is at least `v` exactly when the real sine reaches `v`'s threshold (R92, R9). -/
theorem sineAtLeast_iff {n i v : ℕ} (hi : i < n) (h1 : 1 ≤ v) (h2 : v ≤ 4095) :
    sineAtLeast n i v = true ↔ (2 * (v : ℝ) - 4096) / 4095 ≤ sin (2 * π * i / n) := by
  obtain ⟨hm, hsin⟩ := peakDistance_spec hi
  have hn : (0 : ℝ) < n := by exact_mod_cast (by omega : 0 < n)
  have hm' : (peakDistance n i : ℝ) ≤ 2 * n := by exact_mod_cast hm
  have h1' : (1 : ℝ) ≤ v := by exact_mod_cast h1
  have h2' : (v : ℝ) ≤ 4095 := by exact_mod_cast h2
  obtain ⟨ha, hb⟩ := halfTurns_spec (a := 2 * (v : ℤ) - 4096) (by omega) (by omega) (2 * n)
  push_cast at ha hb
  rw [hsin, sineAtLeast, decide_eq_true_iff]
  generalize halfTurns (2 * (v : ℤ) - 4096) (2 * n) = t at *
  generalize peakDistance n i = m at *
  set q : ℝ := (2 * v - 4096) / 4095 with hq
  have hqa : -1 ≤ q := by rw [hq, le_div_iff₀ (by norm_num)]; linarith
  have hqb : q ≤ 1 := by rw [hq, div_le_iff₀ (by norm_num)]; linarith
  have hx0 : 0 ≤ π * m / (2 * n) := by positivity
  have hx1 : π * m / (2 * n) ≤ π := by
    rw [div_le_iff₀ (by positivity)]; exact mul_le_mul_of_nonneg_left hm' pi_pos.le
  have hcmp : q ≤ cos (π * m / (2 * n)) ↔ π * m / (2 * n) ≤ arccos q := by
    conv_lhs => rw [← cos_arccos hqa hqb]
    exact strictAntiOn_cos.le_iff_ge ⟨arccos_nonneg q, arccos_le_pi q⟩ ⟨hx0, hx1⟩
  rw [hcmp, div_le_iff₀ (by positivity)]
  constructor
  · intro h
    have : (m : ℝ) ≤ t := by exact_mod_cast h
    nlinarith [mul_le_mul_of_nonneg_right this pi_pos.le]
  · intro h
    have : (m : ℝ) < t + 1 := by
      by_contra hc
      nlinarith [mul_le_mul_of_nonneg_right (not_lt.1 hc) pi_pos.le]
    exact Nat.lt_succ_iff.1 (by exact_mod_cast this)

/-- All that the search does: its result splits the numbers it looks at into those that pass and those that fail. -/
theorem largestPassing_spec {test : ℕ → Bool} :
    ∀ (bits v : ℕ), (∀ u w, v < u → u ≤ w → w < v + 2 ^ bits → test w = true → test u = true) →
      v ≤ largestPassing test bits v ∧ largestPassing test bits v < v + 2 ^ bits ∧
      ∀ w, v < w → w < v + 2 ^ bits → (test w = true ↔ w ≤ largestPassing test bits v) := by
  intro bits
  induction bits with
  | zero => intro v _; exact ⟨le_rfl, Nat.lt_succ_self v, fun w h1 h2 => by simp at h2; omega⟩
  | succ bits ih =>
    intro v hmono
    have hp : 0 < 2 ^ bits := Nat.two_pow_pos bits
    rw [pow_succ] at hmono ⊢
    rw [largestPassing]
    by_cases ht : test (v + 2 ^ bits) = true
    · rw [if_pos ht]
      obtain ⟨h1, h2, h3⟩ := ih (v + 2 ^ bits) fun u w a b c => hmono u w (by omega) b (by omega)
      refine ⟨by omega, by omega, fun w a b => ?_⟩
      by_cases hw : v + 2 ^ bits < w
      · exact h3 w hw (by omega)
      · exact ⟨fun _ => by omega, fun _ => hmono w _ a (by omega) (by omega) ht⟩
    · rw [if_neg ht]
      obtain ⟨h1, h2, h3⟩ := ih v fun u w a b c => hmono u w a b (by omega)
      refine ⟨h1, by omega, fun w a b => ?_⟩
      by_cases hw : w < v + 2 ^ bits
      · exact h3 w a hw
      · exact ⟨fun h => absurd (hmono _ w (by omega) (by omega) b h) ht, fun h => by omega⟩

end Sys2Proof.Machine
end

