-- ==== Sys2Proof/Tests/Slice0.lean ====
section
/-! SUPPORT. Tests with results taken from the spec (95_test_vectors.md), the well-formedness smoke test, and for every
statement with hypotheses a concrete state and operands that meet them. -/

namespace Sys2Proof.Tests

open Sys2Proof.Machine Sys2Proof.Safety

/-! ## Decoding: words written out from R72 and R73 (V40, V42) -/

theorem test_decode_nop : decode 0b00000000_000000000000000000000000 = .ok .nop := by decide
theorem test_decode_setw : decode 0b00000001_000000000000000000000010 = .ok (.setw 2) := by decide
theorem test_decode_setp : decode 0b00000010_000000000000000000011110 = .ok (.setp 30) := by decide
theorem test_decode_setf : decode 0b00000011_000011110011111001011000 = .ok (.setf 999000) := by decide
theorem test_decode_applyf : decode 0b00000100_000000000000000000000000 = .ok .applyf := by decide
theorem test_decode_synth : decode 0b00000101_000000000000000000000000 = .ok .synth := by decide
theorem test_decode_start : decode 0b00000110_000000000000000000000000 = .ok .start := by decide
theorem test_decode_stop : decode 0b00000111_000000000000000000000000 = .ok .stop := by decide
theorem test_decode_clrst : decode 0b00001000_000000000000000000000000 = .ok .clrst := by decide
theorem test_decode_all_arg_bits : decode 0x03FFFFFF = .ok (.setf 16777215) := by decide
theorem test_decode_reserved_opcodes : decode 0x09000000 = .error .reservedOpcode ∧
    decode 0x80000000 = .error .reservedOpcode ∧ decode 0xFFFFFFFF = .error .reservedOpcode := by decide
theorem test_decode_nonzero_arg : decode 0x00000001 = .error .nonzeroArg ∧ decode 0x05800000 = .error .nonzeroArg ∧
    decode 0x07FFFFFF = .error .nonzeroArg ∧ decode 0x08000001 = .error .nonzeroArg := by decide
theorem test_decodeTableWord : decodeTableWord 32 0x03001389 = some (.setf 5001) ∧
    decodeTableWord 32 0x06000001 = none := by decide

/-! ## Well-formedness: the check refuses ill-formed terms (R80, R81) -/

theorem test_wf_missing_operand : (AsmTerm.bare .setw).wellFormed = false := by decide
theorem test_wf_superfluous_operand : (AsmTerm.withOperand .nop 0).wellFormed = false := by decide
theorem test_wf_operand_too_wide : (AsmTerm.withOperand .setf (2 ^ 24)).wellFormed = false := by decide
theorem test_wf_setfk_too_large : (AsmTerm.setfk 16778).wellFormed = false := by decide
theorem test_assemble_setf : assembleLine ['S', 'E', 'T', 'F', ' ', '5', '0', '0', '1', ' ', ';', 'x'] =
    .word 0x03001389 := by decide
theorem test_assemble_hex : assembleLine ['S', 'E', 'T', 'P', ' ', '0', 'x', '1', 'E'] = .word 0x0200001E := by decide
theorem test_assemble_setfk : assembleLine ['S', 'E', 'T', 'F', 'K', ' ', '1', '0', '0'] = .word 0x030186A0 := by decide
theorem test_assemble_no_operand_allowed : assembleLine ['S', 'T', 'A', 'R', 'T', ' ', '1'] = .error := by decide

/-! ## The tables (V10, V14, V16, V30, V31) -/

/-- The codes of a table as numbers; the empty list where there is none. -/
def codesOf (w : Waveform) (p n : Nat) : List Nat :=
  match synthesize w p n with
  | .ok codes => codes.map BitVec.toNat
  | .error _ => []

theorem test_square_10 : codesOf .square 30 10 = [4095, 4095, 4095, 0, 0, 0, 0, 0, 0, 0] := by decide
theorem test_ramp_50 : codesOf .ramp 50 10 = [0, 819, 1638, 2457, 3276, 4095, 3276, 2457, 1638, 819] := by decide
theorem test_ramp_90 : codesOf .ramp 90 10 = [0, 455, 910, 1365, 1820, 2275, 2730, 3185, 3640, 4095] := by decide
theorem test_sine_100_cells : (sineCell 100 25).toNat = 4095 ∧ (sineCell 100 75).toNat = 0 ∧
    (sineCell 100 99).toNat = 1919 := by decide
theorem test_sine_500_sum : (codesOf .sine 50 500).sum = 1023751 := by decide +kernel
/-- `round((sin 60° + 1) * 2047.5) = round(3820.68)`, and `round((sin 30° + 1) * 2047.5) = round(3071.25)`, by hand from R92. -/
theorem test_sine_of_other_counts : codesOf .sine 50 6 = [2048, 3821, 3821, 2048, 274, 274] ∧
    (sineCell 12 1).toNat = 3071 ∧ (sineCell 12 3).toNat = 4095 ∧ (sineCell 12 11).toNat = 1024 := by decide +kernel
theorem test_band_edges : [250, 251, 5000, 5001, 10000, 10001, 200000, 200001].map bandCount =
    [4000, 2000, 1000, 500, 500, 250, 50, 10] := by decide
theorem test_sample_rates : [251, 5001, 200001, 999000].map sampleRate = [502000, 2500500, 2000010, 9990000] := by
  decide

/-! ## One step each (V50 to V61) -/

/-- A state after reset with a short sine table: the state `SETF 999000` leaves (V53). -/
def tenCells : State :=
  writeTable ((List.range 10).map (cellCode .sine 50 10)) (setFreq 999000 State.reset)

/-- `tenCells` with the sink started on it. -/
def streamingTen : State :=
  emit (.start 10 (Config.reloadTable 999000)) (setStreaming true tenCells)

/-- `s` with one move pending. -/
def withMove (x : PortInput) (s : State) : State := setInputs [x] s

/-- A state read off an outcome; the fallback state where there is none. -/
def stateOf (o : Host.Outcome State Fault Refusal) : State :=
  match o with
  | .next s => s
  | .fault _ => State.reset
  | .refused _ => State.reset

theorem test_nop_keeps_status : (stateOf (exec .nop (setStatus 3 State.reset))).status = 3 := by decide
theorem test_setw_writes : (stateOf (exec (.setw 2) State.reset)).wave = 2 := by decide
theorem test_setw_rejects : (stateOf (exec (.setw 3) State.reset)).wave = 0 ∧
    (stateOf (exec (.setw 16777215) State.reset)).status = 2 := by decide
theorem test_setp_saturates : (stateOf (exec (.setp 0) State.reset)).percent = 10 ∧
    (stateOf (exec (.setp 16777215) State.reset)).percent = 90 := by decide
theorem test_setp_rejects : (stateOf (exec (.setp 55) State.reset)).percent = 50 ∧
    (stateOf (exec (.setp 89) State.reset)).status = 2 := by decide
theorem test_setf_first_regenerates : (stateOf (exec (.setf 100000) State.reset)).tableLen = 100 := by decide +kernel
theorem test_setf_same_band : (stateOf (exec (.setf 200001) tenCells)).table = tenCells.table ∧
    (stateOf (exec (.setf 1000000) tenCells)).status = 2 := by decide +kernel
theorem test_applyf_regenerates : (stateOf (exec .applyf State.reset)).tableLen = 100 := by decide +kernel
theorem test_synth_square : let s := setPercent 30 (setWave 1 tenCells)
    ((List.range 11).map fun i => (Memory.read (stateOf (exec .synth s)).table i).map BitVec.toNat) =
      [some 4095, some 4095, some 4095, some 0, some 0, some 0, some 0, some 0, some 0, some 0, none] := by
  decide +kernel
theorem test_start_streams : (stateOf (exec .start State.reset)).streaming = true ∧
    (stateOf (exec .start State.reset)).trace = [.start 100 (Config.reloadTable 100000)] := ⟨rfl, rfl⟩
theorem test_setf_bounces_stream : (stateOf (exec (.setf 200001) streamingTen)).trace =
    [.start 10 (Config.reloadTable 999000), .stop, .start 10 (Config.reloadTable 200001)] := rfl
theorem test_stop_ends_stream : (stateOf (exec .stop streamingTen)).streaming = false ∧
    (stateOf (exec .stop streamingTen)).trace = [.start 10 (Config.reloadTable 999000), .stop] := ⟨rfl, rfl⟩
theorem test_clrst : (stateOf (exec .clrst (setStatus 3 State.reset))).status = 0 := by decide
theorem test_clrst_with_arg : (stateOf (takeCommand 0x08000001 (setStatus 2 State.reset))).status = 3 := by decide
theorem test_read_freq : (stateOf (step (withMove (.readRegister 2) State.reset))).delivered =
    some (.register 0x000186A0) := by decide
theorem test_host_read : (stateOf (step (withMove (.hostReadCell 0) tenCells))).delivered = some (.cell 2048) := by
  decide +kernel
theorem test_sink_read : (stateOf (step (withMove (.sinkReadCell 9) streamingTen))).delivered =
    some (.cell (sineCell 10 9 |>.setWidth 16)) := rfl
theorem test_placed_word_runs : (stateOf (step (State.reset.withFetchWord 32 0x0200001E))).percent = 30 := by decide

/-! ## Every statement's hypotheses are met -/

theorem tenCells_codes : synthesize .sine 50 10 = .ok ((List.range 10).map (cellCode .sine 50 10)) := rfl

/-- The idle state after `SETF 999000` meets the invariants. -/
theorem tenCells_inv : Inv tenCells where
  params := ⟨by decide, by unfold LegalPercent; decide, by unfold LegalFreq; decide⟩
  len := .inr rfl
  table := fun _ => ⟨.sine, 50, _, by unfold LegalPercent; decide, tenCells_codes, by decide +kernel⟩
  streams := fun h => by cases h
  idles := fun _ => rfl
  alternates := by unfold Alternates; decide
  memory := by decide +kernel

/-- A streaming state meets the invariants. -/
theorem streamingTen_inv : Inv streamingTen where
  params := ⟨by decide, by unfold LegalPercent; decide, by unfold LegalFreq; decide⟩
  len := .inr rfl
  table := tenCells_inv.table
  streams := fun _ => ⟨by decide, rfl⟩
  idles := fun h => by cases h
  alternates := fun h => by cases h
  memory := tenCells_inv.memory

/-- A command that regenerates completes in any state with legal waveform and percent. -/
theorem regenerating_completes (s : State) (hw : s.wave.toNat ≤ 2) (hp : LegalPercent s.percent.toNat) :
    (∃ t, exec .synth s = .next t) ∧ (∃ t, exec .start s = .next t) ∧ ∃ t, exec .applyf s = .next t := by
  obtain ⟨_, _, -, -, h⟩ := regenerate_legal (s := stopIfStreaming s) (by simpa using hw) (by simpa using hp)
  exact ⟨⟨_, andThen_eq_next.2 ⟨_, h, rfl⟩⟩, ⟨_, andThen_eq_next.2 ⟨_, h, rfl⟩⟩, applyFrequency_legal hw hp⟩

theorem reset_percent_legal : LegalPercent State.reset.percent.toNat := by unfold LegalPercent; decide

theorem witness_EncodeOfDecoded : decode 0x03FFFFFF = .ok (.setf 0xFFFFFF) ∧ decode 0x08000000 = .ok .clrst := by decide

theorem witness_DecodeFollowsMatchAndMask :
    (⟨.setf, 0x03000000, 0xFF000000⟩ : OpcodeRow) ∈ opcodeRows ∧ ∀ r ∈ opcodeRows, (0x09000000 : Word) &&& r.mask ≠ r.matchBits := by
  decide

theorem witness_IllegalWordSetsIllAndNothingElse :
    (withMove (.command 0x09000000) State.reset).inputs = .command 0x09000000 :: [] ∧
    decode 0x09000000 = .error .reservedOpcode ∧ decode 0x06000001 = .error .nonzeroArg := by decide

theorem witness_AssembledTermsDecode :
    (AsmTerm.withOperand .setf 0).wellFormed = true ∧ (AsmTerm.withOperand .setf (2 ^ 24 - 1)).wellFormed = true ∧
    (AsmTerm.bare .start).wellFormed = true ∧ 16777 ≤ 16777 := by decide

theorem witness_StepRunsDecodedCommand :
    (withMove (.command 0x06000000) State.reset).inputs = .command 0x06000000 :: [] ∧
    decode 0x06000000 = .ok .start := by decide

theorem witness_IdleStepKeepsState : State.reset.inputs = [] := rfl

theorem witness_SetwWritesWaveOrRejects : (2 : Arg).toNat ≤ 2 ∧ 2 < (3 : Arg).toNat := by decide

theorem witness_SetpSaturatesThenChecksStep :
    (9 : Arg).toNat < 10 ∧ 90 < (91 : Arg).toNat ∧
    (10 ≤ (10 : Arg).toNat ∧ (10 : Arg).toNat ≤ 90 ∧ (10 : Arg).toNat % 10 = 0) ∧
    (10 ≤ (90 : Arg).toNat ∧ (90 : Arg).toNat ≤ 90 ∧ (90 : Arg).toNat % 10 = 0) ∧
    (10 < (11 : Arg).toNat ∧ (11 : Arg).toNat < 90 ∧ (11 : Arg).toNat % 10 ≠ 0) := by decide

theorem witness_SetfWritesFreqAndApplies :
    ((0 : Arg).toNat = 0 ∧ 999000 < (999001 : Arg).toNat) ∧
    (LegalFreq (1 : Arg).toNat ∧ LegalFreq (999000 : Arg).toNat) ∧
    (waveformOfCode State.reset.wave = some .sine ∧ LegalPercent State.reset.percent.toNat) ∧
    bandCount (1 : Arg).toNat ≠ State.reset.tableLen.toNat ∧ bandCount (200001 : Arg).toNat = tenCells.tableLen.toNat :=
  ⟨by decide, by unfold LegalFreq; decide, ⟨rfl, reset_percent_legal⟩, by decide, by decide⟩

theorem witness_ApplyfAppliesStoredFrequency :
    (waveformOfCode State.reset.wave = some .sine ∧ LegalPercent State.reset.percent.toNat ∧
      bandCount State.reset.freq.toNat ≠ State.reset.tableLen.toNat) ∧
    (waveformOfCode tenCells.wave = some .sine ∧ LegalPercent tenCells.percent.toNat ∧
      bandCount tenCells.freq.toNat = tenCells.tableLen.toNat) :=
  ⟨⟨rfl, reset_percent_legal, by decide⟩, rfl, tenCells_inv.params.percent, by decide⟩

theorem witness_SynthRegeneratesAndRestreams :
    waveformOfCode streamingTen.wave = some .sine ∧ LegalPercent streamingTen.percent.toNat :=
  ⟨rfl, streamingTen_inv.params.percent⟩

theorem witness_StartRegeneratesAndStreams :
    waveformOfCode State.reset.wave = some .sine ∧ LegalPercent State.reset.percent.toNat := ⟨rfl, reset_percent_legal⟩

theorem witness_StopEndsStreaming : streamingTen.streaming = true ∧ State.reset.streaming = false := ⟨rfl, rfl⟩

theorem witness_StartWhileStreamingIsSynth : streamingTen.streaming = true := rfl

theorem witness_HostBracketEqualsSynth : streamingTen.streaming = true := rfl

theorem witness_ClrstClearsStatusOnly : opField 0x08000001 = 0x08 ∧ argField 0x08000001 ≠ 0 := by decide

theorem witness_RejectionsArePrecise :
    decode 0x09000000 = .error .reservedOpcode ∧
    (decode 0x01000003 = .ok (.setw 3) ∧ OperandRejected (.setw 3)) ∧
    (decode 0x01000002 = .ok (.setw 2) ∧ ¬OperandRejected (.setw 2) ∧ Instr.setw 2 ≠ .clrst ∧
      takeCommand 0x01000002 State.reset = .next (setWave 2 State.reset)) :=
  ⟨by decide, ⟨by decide, by unfold OperandRejected; decide⟩, by decide, by unfold OperandRejected; decide, by decide, rfl⟩

theorem witness_NoCommandReadsStatus :
    exec .nop State.reset = .next State.reset ∧
    exec .synth (setPercent 0 (setWave 2 State.reset)) = .fault .degenerateRamp ∧
    exec .synth (setWave 3 State.reset) = .refused .reservedWaveform := ⟨rfl, rfl, rfl⟩

theorem witness_CommandsChangeOnlyTheirWriteSet : ∃ t, exec .start State.reset = .next t ∧
    t.streaming ≠ State.reset.streaming := ⟨_, rfl, by decide⟩

theorem witness_CellsAboveTheTableAreKept : ∃ t, exec .synth State.reset = .next t ∧ t.table ≠ State.reset.table :=
  ⟨_, rfl, by decide +kernel⟩

theorem witness_BandCountsOfTheEightBands :
    (1 ≤ 1 ∧ 1 ≤ 250) ∧ (251 ≤ 251 ∧ 251 ≤ 500) ∧ (501 ≤ 501 ∧ 501 ≤ 5000) ∧ (5001 ≤ 5001 ∧ 5001 ≤ 10000) ∧
    (10001 ≤ 10001 ∧ 10001 ≤ 20000) ∧ (20001 ≤ 20001 ∧ 20001 ≤ 100000) ∧ (100001 ≤ 100001 ∧ 100001 ≤ 200000) ∧
    (200001 ≤ 200001 ∧ 200001 ≤ 999000) := by decide

theorem witness_BandCountFallsThroughTheEightCounts : 250 ≤ 251 ∧ 10 ∈ BandCounts ∧ 4000 ∈ BandCounts := by decide

theorem witness_SampleRateBounds : LegalFreq 1 ∧ LegalFreq 999000 := by unfold LegalFreq; decide

theorem witness_RateQuantitiesAgree :
    (∃ t, exec .applyf State.reset = .next t) ∧ (∃ t, exec .start State.reset = .next t ∧ t.streaming = true) ∧
    LegalFreq (999000 : Arg).toNat ∧ ∃ t, exec (.setf 999000) State.reset = .next t :=
  ⟨(regenerating_completes _ (by decide) reset_percent_legal).2.2, ⟨_, rfl, rfl⟩, by unfold LegalFreq; decide, ⟨_, rfl⟩⟩

theorem witness_SineTableIsTheRealFormula : 10 ∈ BandCounts ∧ 4000 ∈ BandCounts := by decide

theorem witness_SineTableSymmetries : (1 ≤ 2 ∧ 2 % 2 = 0) ∧ (1 ≤ 6 ∧ 6 % 2 = 0) ∧ (1 ≤ 4000 ∧ 4000 % 2 = 0 ∧ 4000 % 4 = 0) := by
  decide

theorem witness_SineTablesAreDecimations : (4000 % 1 = 0 ∧ 0 < 1) ∧ (4000 % 4000 = 0 ∧ 3999 < 4000) := by decide

theorem witness_SquareTableIsAHighPrefix : 1 ≤ 1 ∧ (LegalPercent 10 ∧ 10 ∈ BandCounts) ∧ (LegalPercent 90 ∧ 4000 ∈ BandCounts) := by
  unfold LegalPercent; decide

theorem witness_RampCellsInterpolate : 1 = (10 * 10 + 50) / 100 ∧ 9 = 10 - 1 ∧ 1 ≤ 1 ∧ 1 ≤ 9 := by decide

/-- The floor is a quantiser of R107. -/
theorem rampQuant_law : QuantiserLaw rampQuant where
  mono := fun a b c d hb hd h => by
    show a / b ≤ c / d
    rw [Nat.le_div_iff_mul_le hd]
    exact Nat.le_of_mul_le_mul_right (by have := Nat.div_mul_le_self a b; nlinarith : a / b * d * b ≤ c * b) hb
  zero := fun b _ => Nat.zero_div b
  top := fun _ hb => Nat.mul_div_cancel _ hb

theorem witness_RampShapeForEveryQuantiser : QuantiserLaw rampQuant ∧ 1 ≤ 1 ∧ 1 ≤ 9 := ⟨rampQuant_law, by decide⟩

theorem witness_RampPeakAndZeroAreUnique : (1 ≤ 1 ∧ 1 ≤ 4095 ∧ 4095 ≤ 4095) ∧ 5 = 5 ∧ 1 ≤ 4 ∧ 4 ≤ 5 - 1 := by decide

theorem witness_DegenerateRampHasNoTable : synthesize .ramp 0 10 = .error .degenerateRamp ∧
    synthesize .ramp 100 10 = .error .degenerateRamp := ⟨rfl, rfl⟩

theorem witness_SynthTwiceLeavesTheSameTable : State.reset.streaming = false ∧
    ∃ t, exec .synth State.reset = .next t ∧ ∃ u, exec .synth t = .next u := by
  obtain ⟨t, ht⟩ := (regenerating_completes State.reset (by decide) reset_percent_legal).1
  have hs : t = stateOf (exec .synth State.reset) := by rw [ht]; rfl
  exact ⟨rfl, t, ht, (regenerating_completes t (by rw [hs]; decide +kernel)
    (by rw [hs]; unfold LegalPercent; decide +kernel)).1⟩

theorem witness_TableStoreIsTheWriteLoop : Memory.wf tenCells.table = true ∧ (List.replicate 4000 (0 : Code)).length ≤ 4000 :=
  ⟨tenCells_inv.memory, List.length_replicate.le⟩

theorem witness_RegisterReadPortMap : 9 ≤ (9 : RegAddr).toNat ∧ 9 ≤ (15 : RegAddr).toNat ∧
    (withMove (.readRegister 15) State.reset).inputs = .readRegister 15 :: [] := by decide

theorem witness_HostTableReadOutcomes :
    ((withMove (.hostReadCell 9) streamingTen).inputs = .hostReadCell 9 :: [] ∧ streamingTen.streaming = true) ∧
    (tenCells.streaming = false ∧ tenCells.tableLen.toNat ≤ (10 : CellIndex).toNat) ∧
    ((setTable [] tenCells).streaming = false ∧ (9 : CellIndex).toNat < (setTable [] tenCells).tableLen.toNat ∧
      Memory.read (setTable [] tenCells).table 9 = none) ∧
    ((9 : CellIndex).toNat < tenCells.tableLen.toNat ∧ Memory.read tenCells.table 9 = some (sineCell 10 9)) :=
  ⟨⟨rfl, rfl⟩, ⟨rfl, by decide⟩, ⟨rfl, by decide, rfl⟩, by decide, rfl⟩

theorem witness_SinkTableReadOutcomes :
    ((withMove (.sinkReadCell 0) State.reset).inputs = .sinkReadCell 0 :: [] ∧ sinkAfter State.reset.trace = none) ∧
    (sinkAfter streamingTen.trace = some (10, Config.reloadTable 999000) ∧
      (10 : CellIndex).toNat ≤ (10 : CellIndex).toNat) ∧
    ((9 : CellIndex).toNat < (10 : CellIndex).toNat ∧ (setTableLen 9 streamingTen).tableLen.toNat ≤ (9 : CellIndex).toNat) ∧
    Memory.read (setTable [] streamingTen).table 9 = none ∧
    ((9 : CellIndex).toNat < streamingTen.tableLen.toNat ∧ Memory.read streamingTen.table 9 = some (sineCell 10 9)) :=
  ⟨⟨rfl, rfl⟩, ⟨rfl, by decide⟩, by decide, rfl, by decide, rfl⟩

theorem witness_RunningSinkReadsOneTable : Inv streamingTen ∧
    sinkAfter streamingTen.trace = some (10, Config.reloadTable 999000) := ⟨streamingTen_inv, rfl⟩

theorem witness_TableChangesOnlyInsideTheBracket : Inv streamingTen ∧ sinkAfter streamingTen.trace ≠ none ∧
    ∃ t, exec .synth streamingTen = .next t :=
  ⟨streamingTen_inv, by rw [show sinkAfter streamingTen.trace = some (10, Config.reloadTable 999000) from rfl]; simp,
    (regenerating_completes _ (by decide) streamingTen_inv.params.percent).1⟩

theorem witness_CellBytesAreLittleEndian : (0 : CellIndex).toNat < 4000 ∧ tableRead 0 tenCells = .ok 2048 :=
  ⟨by decide, rfl⟩

theorem witness_ResetFromAnyState : (withMove .reset streamingTen).inputs = .reset :: [] := rfl

/-- `tenCells` with a START pending. -/
def pendingStart : State := withMove (.command 0x06000000) tenCells

theorem pendingStart_inv : Inv pendingStart :=
  ⟨⟨tenCells_inv.params.wave, tenCells_inv.params.percent, tenCells_inv.params.freq⟩, tenCells_inv.len,
    tenCells_inv.table, tenCells_inv.streams, tenCells_inv.idles, tenCells_inv.alternates, tenCells_inv.memory⟩

theorem witness_StepKeepsInvariants : Inv pendingStart ∧ ∃ t, step pendingStart = .next t :=
  ⟨pendingStart_inv, (regenerating_completes tenCells (by decide) tenCells_inv.params.percent).2.1⟩

theorem witness_EveryWordCompletes : Inv streamingTen := streamingTen_inv

theorem witness_RunsWithoutTableReadsNeverStop : Inv pendingStart ∧ ∀ x ∈ pendingStart.inputs, NoTableRead x :=
  ⟨pendingStart_inv, fun x hx => by simp [pendingStart, withMove] at hx; subst hx; trivial⟩

theorem witness_StepKeepsMemoryForm : Memory.wf pendingStart.table = true ∧ ∃ t, step pendingStart = .next t :=
  ⟨tenCells_inv.memory, witness_StepKeepsInvariants.2⟩

theorem witness_TableLenStaysNonzero : exec .nop State.reset = .next State.reset ∧ State.reset.tableLen = 0 := ⟨rfl, rfl⟩

theorem witness_WaveformTickCarriesOut : Inv streamingTen ∧ streamingTen.streaming = true ∧ Inv tenCells ∧
    tenCells.streaming = false := ⟨streamingTen_inv, rfl, tenCells_inv, rfl⟩

theorem witness_PercentTickCarriesOut : Inv (setWave 1 streamingTen) ∧
    waveformOfCode (setWave 1 streamingTen).wave = some .square ∧ (setWave 1 streamingTen).streaming = true ∧
    Inv tenCells ∧ tenCells.wave = 0 :=
  ⟨⟨⟨by decide, streamingTen_inv.params.percent, streamingTen_inv.params.freq⟩, streamingTen_inv.len,
    streamingTen_inv.table, streamingTen_inv.streams, streamingTen_inv.idles, streamingTen_inv.alternates,
    streamingTen_inv.memory⟩, rfl, rfl, tenCells_inv, rfl⟩

theorem witness_TransmitToggleCarriesOut : Inv streamingTen ∧ Inv tenCells := ⟨streamingTen_inv, tenCells_inv⟩

theorem witness_SineOfEveryOtherCountIsTheRealFormula : (1 ≤ 3 ∧ 4000 % 3 ≠ 0) ∧ (1 ≤ 4001 ∧ 4000 % 4001 ≠ 0) := by decide

theorem witness_SineTiesAreTheZeroCrossings : (0 < 1 ∧ 2 * 0 % 1 = 0) ∧ (3 < 6 ∧ 2 * 3 % 6 = 0) ∧ (1 < 6 ∧ 2 * 1 % 6 ≠ 0) := by
  decide

end Sys2Proof.Tests
end

section
/-! PROOFS. The sine of the model is the real formula of 40_synthesis.md R92, at every sample count.

Where `n` does not divide 4000 the cell is the result of a search, and the laws of `sineAtLeast` and `largestPassing` say
what it finds. Where `n` divides 4000 the cell comes from the quarter table of R96. Its numbers are compared with the sines
of the multiples of an angle close to `pi / 2000` whose sine and cosine are rational, so that these sines are quotients of
integers; the sine being Lipschitz, the difference of the two angles is paid for with a margin in the comparison. -/

namespace Sys2Proof.Machine

open Real

/-! ## Rounding a sine to a code -/

/-- The code of a sine value: `round((x + 1) * 2047.5)`, half up (R92, R9). -/
noncomputable def roundSine (x : ℝ) : ℤ := ⌊(x + 1) * (4095 / 2 : ℝ) + 1 / 2⌋

theorem le_roundSine_iff {x : ℝ} {v : ℤ} : v ≤ roundSine x ↔ (2 * (v : ℝ) - 4096) / 4095 ≤ x := by
  rw [roundSine, Int.le_floor, div_le_iff₀ (by norm_num)]
  constructor <;> intro h <;> linarith

theorem roundSine_nonneg {x : ℝ} (h : -1 ≤ x) : 0 ≤ roundSine x :=
  le_roundSine_iff.2 (by norm_num; linarith)

theorem roundSine_le_codeMax {x : ℝ} (h : x ≤ 1) : roundSine x ≤ 4095 := by
  by_contra hv
  have := le_roundSine_iff.1 (show 4096 ≤ roundSine x by omega)
  norm_num at this
  linarith

theorem roundSine_zero : roundSine 0 = 2048 := by norm_num [roundSine]

/-- `(x + 1) * 2047.5` lies nearer to `v` than half-way to a neighbour. -/
def NearCode (x : ℝ) (v : ℤ) : Prop := |4095 * x - (2 * v - 4095)| < 1

theorem NearCode.roundSine_eq {x : ℝ} {v : ℤ} (h : NearCode x v) : roundSine x = v := by
  obtain ⟨hlo, hhi⟩ := abs_lt.1 h
  rw [roundSine, Int.floor_eq_iff]
  constructor <;> linarith

/-- The lower half of the sine mirrors the upper half (R94 (c)). Ties would break it: half-way values go up on both sides. -/
theorem NearCode.neg {x : ℝ} {v : ℤ} (h : NearCode x v) : NearCode (-x) (4095 - v) := by
  unfold NearCode at *
  rw [← abs_neg]
  convert h using 2
  push_cast
  ring

/-! ## The exact sine -/

/-- The search finds the real formula: a code that passes the test is one the rounded sine reaches. -/
theorem sineExact_eq_roundSine {n i : ℕ} (hi : i < n) : (sineExact n i : ℤ) = roundSine (sin (2 * π * i / n)) := by
  have hpass {w : ℕ} (h1 : 1 ≤ w) (h2 : w ≤ 4095) :
      sineAtLeast n i w = true ↔ (w : ℤ) ≤ roundSine (sin (2 * π * i / n)) := by
    rw [sineAtLeast_iff hi h1 h2, le_roundSine_iff, Int.cast_natCast]
  have hmono : ∀ u w, 0 < u → u ≤ w → w < 0 + 2 ^ 12 → sineAtLeast n i w = true → sineAtLeast n i u = true := by
    intro u w hu huw hw h
    rw [hpass (by omega) (by omega)] at h ⊢
    omega
  obtain ⟨-, hlt, hfound⟩ := largestPassing_spec 12 0 hmono
  have h0 := roundSine_nonneg (neg_one_le_sin (2 * π * i / n))
  have h1 := roundSine_le_codeMax (sin_le_one (2 * π * i / n))
  rw [← sineExact] at hlt hfound
  generalize roundSine (sin (2 * π * i / n)) = r at *
  have hsplit {w : ℕ} (hw1 : 1 ≤ w) (hw2 : w ≤ 4095) : (w : ℤ) ≤ r ↔ w ≤ sineExact n i :=
    (hpass hw1 hw2).symm.trans (hfound w (by omega) (by omega))
  apply le_antisymm
  · by_cases hz : sineExact n i = 0
    · omega
    · exact (hsplit (by omega) (by omega)).2 le_rfl
  · by_cases hz : r = 0
    · omega
    · have := (hsplit (w := r.toNat) (by omega) (by omega)).1 (by omega)
      omega

/-! ## An angle close to `pi / 2000` with a rational sine and cosine -/

/-- `a ^ 2 - b ^ 2` for `a = 356507` and `b = 280`; `b / a` is a convergent of `tan (pi / 4000)`. -/
def turnCos : ℤ := 127097162649

/-- `2 * a * b` for the same `a` and `b`. -/
def turnSin : ℤ := 199643920

/-- `a ^ 2 + b ^ 2` for the same `a` and `b`, the hypotenuse over `turnCos` and `turnSin`. -/
def turnNorm : ℤ := 127097319449

/-- The angle whose sine is `turnSin / turnNorm`. -/
noncomputable def turnAngle : ℝ := arcsin (turnSin / turnNorm)

theorem sin_turnAngle : sin turnAngle * turnNorm = turnSin := by
  rw [turnAngle, sin_arcsin] <;> norm_num [turnSin, turnNorm]

theorem cos_turnAngle : cos turnAngle * turnNorm = turnCos := by
  have hsq : (1 : ℝ) - (turnSin / turnNorm) ^ 2 = (turnCos / turnNorm) ^ 2 := by
    norm_num [turnSin, turnNorm, turnCos]
  rw [turnAngle, cos_arcsin, hsq, sqrt_sq] <;> norm_num [turnCos, turnNorm]

/-- Both `turnAngle` and `pi / 2000` lie between `0.00157079632` and `0.00157079634`. -/
theorem abs_turnAngle_sub_le : |turnAngle - π / 2000| ≤ 1 / (4095 * 10 ^ 7) := by
  have hdomain {x : ℝ} (h0 : 0 ≤ x) (h1 : x ≤ 1) : x ∈ Set.Icc (-(π / 2)) (π / 2) :=
    ⟨by linarith [pi_gt_three], by linarith [pi_gt_three]⟩
  have hrange : (turnSin / turnNorm : ℝ) ∈ Set.Icc (-1 : ℝ) 1 := by norm_num [turnSin, turnNorm]
  have hlo : 0.00157079632 ≤ turnAngle := by
    rw [turnAngle, le_arcsin_iff_sin_le (hdomain (by norm_num) (by norm_num)) hrange]
    have hb := (abs_le.1 (sin_bound (x := 0.00157079632) (by norm_num [abs_of_pos]))).2
    norm_num [turnSin, turnNorm, abs_of_pos] at hb ⊢
    linarith
  have hhi : turnAngle ≤ 0.00157079634 := by
    rw [turnAngle, arcsin_le_iff_le_sin hrange (hdomain (by norm_num) (by norm_num))]
    have hb := (abs_le.1 (sin_bound (x := 0.00157079634) (by norm_num [abs_of_pos]))).1
    norm_num [turnSin, turnNorm, abs_of_pos] at hb ⊢
    linarith
  have h1 := pi_gt_d20
  have h2 := pi_lt_d20
  rw [abs_le]
  norm_num at *
  constructor <;> linarith

/-! ## The quarter table -/

/-- `Q[k]` against `y / p`, the sine of `k` times `turnAngle`, with the margin that `k` times the difference between that
angle and `pi / 2000` asks for. -/
def quarterCellOk (k : ℕ) (y p : ℤ) : Bool :=
  decide (((4095 * y - (2 * sineQuarter k - 4095) * p).natAbs : ℤ) * 10 ^ 7 + k * p < 10 ^ 7 * p)

/-- The comparison for the `steps` cells from `k` on; `x / p` and `y / p` are the cosine and the sine of `k` times
`turnAngle`. -/
def quarterOkFrom (k : ℕ) (x y p : ℤ) (steps : ℕ) : Bool :=
  match steps with
  | 0 => true
  | steps + 1 =>
    quarterCellOk k y p &&
      quarterOkFrom (k + 1) (x * turnCos - y * turnSin) (x * turnSin + y * turnCos) (p * turnNorm) steps

theorem nearCode_of_quarterCellOk {k : ℕ} {y p : ℤ} (hp : 0 < p) (hy : sin (k * turnAngle) * p = y)
    (h : quarterCellOk k y p = true) : NearCode (sin (k * (π / 2000))) (sineQuarter k) := by
  have hp' : (0 : ℝ) < p := by exact_mod_cast hp
  have hcheck : |4095 * (y : ℝ) - (2 * sineQuarter k - 4095) * p| * 10 ^ 7 + k * p < 10 ^ 7 * p := by
    rw [quarterCellOk, decide_eq_true_iff, Int.natCast_natAbs] at h
    exact_mod_cast h
  have hturn : |4095 * sin (k * turnAngle) - (2 * sineQuarter k - 4095)| < 1 - k / 10 ^ 7 := by
    have e : 4095 * (y : ℝ) - (2 * sineQuarter k - 4095) * p =
        (4095 * sin (k * turnAngle) - (2 * sineQuarter k - 4095)) * p := by rw [← hy]; ring
    rw [e, abs_mul, abs_of_pos hp'] at hcheck
    refine lt_of_mul_lt_mul_right ?_ (by positivity : (0 : ℝ) ≤ p * 10 ^ 7)
    linarith
  have hangle : |4095 * (sin (k * (π / 2000)) - sin (k * turnAngle))| ≤ k / 10 ^ 7 := by
    rw [abs_mul, abs_of_pos (by norm_num : (0 : ℝ) < 4095), abs_sub_comm]
    calc 4095 * |sin (k * turnAngle) - sin (k * (π / 2000))|
        ≤ 4095 * |k * turnAngle - k * (π / 2000)| := mul_le_mul_of_nonneg_left (abs_sin_sub_sin_le _ _) (by norm_num)
      _ = 4095 * (k * |turnAngle - π / 2000|) := by rw [← mul_sub, abs_mul, Nat.abs_cast]
      _ ≤ 4095 * (k * (1 / (4095 * 10 ^ 7))) := by gcongr; exact abs_turnAngle_sub_le
      _ = k / 10 ^ 7 := by ring
  calc |4095 * sin (k * (π / 2000)) - (2 * (sineQuarter k : ℤ) - 4095)|
      = |4095 * (sin (k * (π / 2000)) - sin (k * turnAngle)) +
          (4095 * sin (k * turnAngle) - (2 * sineQuarter k - 4095))| := by push_cast; congr 1; ring
    _ ≤ _ := abs_add_le _ _
    _ < 1 := by linarith

/-- The loop turns by `turnAngle` at each step. -/
theorem nearCode_of_quarterOkFrom :
    ∀ (steps k : ℕ) (x y p : ℤ), 0 < p → cos (k * turnAngle) * p = x → sin (k * turnAngle) * p = y →
      quarterOkFrom k x y p steps = true →
      ∀ j, k ≤ j → j < k + steps → NearCode (sin (j * (π / 2000))) (sineQuarter j) := by
  intro steps
  induction steps with
  | zero => intros; omega
  | succ steps ih =>
    intro k x y p hp hx hy h j hkj hj
    rw [quarterOkFrom, Bool.and_eq_true] at h
    obtain ⟨hcell, hrest⟩ := h
    rcases hkj.eq_or_lt with rfl | hlt
    · exact nearCode_of_quarterCellOk hp hy hcell
    · refine ih (k + 1) _ _ _ (mul_pos hp (by decide)) ?_ ?_ hrest j hlt (by omega)
      · push_cast
        rw [add_one_mul, cos_add, ← hx, ← hy, ← cos_turnAngle, ← sin_turnAngle]
        ring
      · push_cast
        rw [add_one_mul, sin_add, ← hx, ← hy, ← cos_turnAngle, ← sin_turnAngle]
        ring

theorem quarterOkFrom_one : quarterOkFrom 1 turnCos turnSin turnNorm 1000 = true := by decide +kernel

/-- R96's number `Q[k]` is the real formula at `2 * pi * k / 4000`, and not half-way, but for `Q[0]`. -/
theorem nearCode_sineQuarter {k : ℕ} (h1 : 1 ≤ k) (h2 : k ≤ 1000) :
    NearCode (sin (k * (π / 2000))) (sineQuarter k) :=
  nearCode_of_quarterOkFrom 1000 1 turnCos turnSin turnNorm (by decide) (by simpa using cos_turnAngle)
    (by simpa using sin_turnAngle) quarterOkFrom_one k h1 (by omega)

theorem sineQuarter_eq_roundSine {k : ℕ} (hk : k ≤ 1000) :
    (sineQuarter k : ℤ) = roundSine (sin (k * (π / 2000))) := by
  rcases k.eq_zero_or_pos with rfl | h
  · rw [Nat.cast_zero, zero_mul, sin_zero, roundSine_zero]; rfl
  · exact (nearCode_sineQuarter h hk).roundSine_eq.symm

theorem codeMax_sub_sineQuarter_eq_roundSine {k : ℕ} (h1 : 1 ≤ k) (h2 : k ≤ 1000) :
    ((Config.codeMax - sineQuarter k : ℕ) : ℤ) = roundSine (-sin (k * (π / 2000))) := by
  have hle : sineQuarter k ≤ 4095 := by
    have := roundSine_le_codeMax (sin_le_one (k * (π / 2000)))
    rw [← sineQuarter_eq_roundSine h2] at this
    exact_mod_cast this
  rw [(nearCode_sineQuarter h1 h2).neg.roundSine_eq]
  exact Nat.cast_sub hle

/-- The four quarters of the sine (R96, R94). -/
theorem sineCode_eq_roundSine {n i : ℕ} (hi : i < n) (hn : 4000 % n = 0) :
    (sineCode i n : ℤ) = roundSine (sin (2 * π * i / n)) := by
  obtain ⟨m, hm⟩ := Nat.dvd_of_mod_eq_zero hn
  have hquot : 4000 / n = m := by rw [hm, Nat.mul_div_cancel_left _ (by omega)]
  have hangle : 2 * π * i / n = (i * m : ℕ) * (π / 2000) := by
    have hn0 : (n : ℝ) ≠ 0 := by exact_mod_cast (by omega : n ≠ 0)
    have hm' : (4000 : ℝ) = n * m := by exact_mod_cast hm
    rw [div_eq_iff hn0]
    push_cast
    linear_combination (π * i / 2000) * hm'
  have hk : i * m < 4000 := by
    rw [hm]
    exact Nat.mul_lt_mul_of_pos_right hi (Nat.pos_of_ne_zero (by rintro rfl; omega))
  rw [hangle, sineCode, hquot]
  generalize i * m = k at hk
  split_ifs with h1 h2 h3
  · exact sineQuarter_eq_roundSine h1
  · rw [sineQuarter_eq_roundSine (by omega), ← sin_pi_sub, Nat.cast_sub h2]
    congr 2; push_cast; ring
  · rw [codeMax_sub_sineQuarter_eq_roundSine (by omega) (by omega), ← sin_add_pi, Nat.cast_sub (by omega)]
    congr 2; push_cast; ring
  · rw [codeMax_sub_sineQuarter_eq_roundSine (by omega) (by omega), ← sin_neg, ← sin_add_two_pi, Nat.cast_sub hk.le]
    congr 2; push_cast; ring

/-! ## The cell and the table -/

/-- R92: the cell of the model is the real formula, at every sample count. -/
theorem sineCell_eq_roundSine {n i : ℕ} (hi : i < n) :
    ((sineCell n i).toNat : ℤ) = roundSine (sin (2 * π * i / n)) := by
  have hcode : ((if 4000 % n = 0 then sineCode i n else sineExact n i : ℕ) : ℤ) = roundSine (sin (2 * π * i / n)) := by
    split_ifs with hn
    · exact sineCode_eq_roundSine hi hn
    · exact sineExact_eq_roundSine hi
  have hle := roundSine_le_codeMax (sin_le_one (2 * π * i / n))
  rw [sineCell, BitVec.toNat_ofNat, Nat.mod_eq_of_lt (by omega), hcode]

/-- R92: the sine table is the real formula, whatever the percent. -/
theorem synthesize_sine_eq_roundSine (p n : ℕ) : ∃ codes, synthesize .sine p n = .ok codes ∧ codes.length = n ∧
    ∀ (i : ℕ) (v : Code), codes[i]? = some v → (v.toNat : ℤ) = roundSine (sin (2 * π * i / n)) := by
  have hok : synthesize .sine p n = .ok ((List.range n).map (cellCode .sine p n)) := synthesize_eq_ok.2 ⟨rfl, rfl⟩
  refine ⟨_, hok, length_of_synthesize hok, fun i v hv => ?_⟩
  have hi : i < n := by
    have := (List.getElem?_eq_some_iff.1 hv).1
    rwa [length_of_synthesize hok] at this
  rw [getElem?_of_synthesize hok hi, Option.some.injEq] at hv
  rw [← hv]
  exact sineCell_eq_roundSine hi

/-! ## The ties of the rounding -/

/-- A sine of a rational part of a turn that lies half-way between two codes is 0: by Niven's theorem it is one of 0,
`± 1 / 2` and `± 1`, and of these only 0 is an even number of 4095ths. -/
theorem sin_eq_zero_of_tie {r : ℚ} {k : ℤ} (h : (sin (r * π) + 1) * (4095 / 2 : ℝ) = (k : ℝ) + 1 / 2) :
    sin (r * π) = 0 := by
  have hk : sin (r * π) = ((2 * k - 4094) / 4095 : ℚ) := by push_cast; linarith
  have hcases := niven_sin ⟨r, rfl⟩ ⟨_, hk⟩
  simp only [Set.mem_insert_iff, Set.mem_singleton_iff] at hcases
  rcases hcases with e | e | e | e | e <;> rw [e] at h
  · have : (2 * k + 1 : ℝ) = 0 := by linarith
    norm_cast at this; omega
  · have : (4 * k + 2 : ℝ) = 4095 := by linarith
    norm_cast at this; omega
  · exact e
  · have : (4 * k + 2 : ℝ) = 3 * 4095 := by linarith
    norm_cast at this; omega
  · have : (2 * k + 1 : ℝ) = 2 * 4095 := by linarith
    norm_cast at this; omega

theorem sin_cell_eq_zero_iff {n i : ℕ} (hi : i < n) : sin (2 * π * i / n) = 0 ↔ 2 * i % n = 0 := by
  have hn : (n : ℝ) ≠ 0 := by exact_mod_cast (by omega : n ≠ 0)
  have hturns (m : ℤ) : m * π = 2 * π * i / n ↔ (2 * i : ℤ) = n * m := by
    rw [eq_div_iff hn, ← @Int.cast_inj ℝ]
    push_cast
    constructor <;> intro h
    · exact mul_left_cancel₀ pi_ne_zero (by linarith)
    · linear_combination -π * h
  rw [sin_eq_zero_iff, ← Nat.dvd_iff_mod_eq_zero, ← Int.natCast_dvd_natCast]
  push_cast
  exact exists_congr hturns

/-! ## The obligations -/

/-- Settles O29: the quarter table agrees with the real formula at every divisor of 4000, and with it at the band counts. -/
theorem sineTableIsTheRealFormula : Obligations.SineTableIsTheRealFormula :=
  fun p n _ => synthesize_sine_eq_roundSine p n

/-- Settles O56: the exact arithmetic finds the code of the real formula. -/
theorem sineOfEveryOtherCountIsTheRealFormula : Obligations.SineOfEveryOtherCountIsTheRealFormula :=
  fun p n _ _ => synthesize_sine_eq_roundSine p n

/-- Settles O57: by Niven's theorem a tie is a zero of the sine, and there the real formula reads 2048. -/
theorem sineTiesAreTheZeroCrossings : Obligations.SineTiesAreTheZeroCrossings := by
  intro n i hi
  refine ⟨⟨fun ⟨k, hk⟩ => ?_, fun h => ⟨2047, ?_⟩⟩, fun h => ?_⟩
  · rw [← sin_cell_eq_zero_iff hi]
    have e : 2 * π * i / n = ((2 * i / n : ℚ) : ℝ) * π := by push_cast; ring
    rw [e] at hk ⊢
    exact sin_eq_zero_of_tie hk
  · rw [(sin_cell_eq_zero_iff hi).2 h]; norm_num
  · have hcell := sineCell_eq_roundSine hi
    rw [(sin_cell_eq_zero_iff hi).2 h, roundSine_zero] at hcell
    exact_mod_cast hcell

end Sys2Proof.Machine
end

section
/-! PROOFS. The state of 10_state.md: the registers and their read port, what no command reads or makes zero, and the
invariants I1 to I8 of R36, which every step keeps.

A command that touches the sink works inside a bracket: the sink is stopped, the table is brought up to date, the sink is
started. `Refreshable` is what it needs before the bracket, `ReadyToStart` what holds in its middle, and a `Start` from
there restores the invariants. SETF needs the weaker `Refreshable`: the write of `FREQ` alone breaks I4 and I6. -/

namespace Sys2Proof.Machine

open Sys2Proof.Safety

/-! ## The frequency's registers -/

theorem countOf_pos (s : State) : 0 < countOf s := bandCount_pos _

/-- R125: up to 200000 Hz the bands keep the sample rate within 10000000, above it the count is 10. -/
theorem sampleRate_le (f : Nat) : sampleRate f ≤ max 10000000 (10 * f) := by
  unfold sampleRate bandCount
  split_ifs <;> omega

/-- R125: no legal frequency has a smaller sample rate than 1 Hz. -/
theorem le_sampleRate {f : Nat} (hf : 1 ≤ f) : 4000 ≤ sampleRate f := by
  unfold sampleRate bandCount
  split_ifs <;> omega

/-- R29: the 24 bits hold the sample rate of every value of `FREQ`, legal or not. -/
theorem sampleRateReg_toNat (s : State) : (sampleRateReg s).toNat = s.freq.toNat * bandCount s.freq.toNat := by
  have hle := sampleRate_le s.freq.toNat
  have hfreq := s.freq.isLt
  rw [sampleRateReg, BitVec.toNat_ofNat, Nat.mod_eq_of_lt (by omega), sampleRate]

theorem sampleCountReg_toNat (s : State) : (sampleCountReg s).toNat = bandCount s.freq.toNat :=
  toNat_ofNat_countOf s

/-! ## The ports -/

/-- A pending move is taken and served (log 1). -/
theorem step_of_inputs {s : State} {x : PortInput} {rest : List PortInput} (h : s.inputs = x :: rest) :
    step s = serve x (setInputs rest s) := by
  rw [step, serveNext, h]

/-- The addresses above `STATUS` are reserved (R35). -/
theorem registerValue_reserved {a : RegAddr} (h : 9 ≤ a.toNat) (s : State) : registerValue a s = 0 := by
  unfold registerValue
  split
  case h_10 => rfl
  all_goals omega

/-- The sink's read below its `len`, of a cell that `TableRead` delivers (R59, R54). -/
theorem sinkReadCell_of_running {s : State} {i len : CellIndex} {r : Reload} {v : PortCell}
    (hsink : sinkAfter s.trace = some (len, r)) (hi : i.toNat < len.toNat) (hread : tableRead i s = .ok v) :
    sinkReadCell i s = .next (setDelivered (some (.cell v)) s) := by
  simp only [sinkReadCell, hsink, if_neg (Nat.not_le.2 hi), hread, deliverCell]

/-! ## No command reads `STATUS` -/

/-- The outcome with `STATUS` of its next state overwritten. -/
def withStatus (v : BitVec 2) (o : Host.Outcome State Fault Refusal) : Host.Outcome State Fault Refusal :=
  andThen o fun t => .next (setStatus v t)

@[simp] theorem withStatus_next (v : BitVec 2) (s : State) : withStatus v (.next s) = .next (setStatus v s) := rfl
@[simp] theorem withStatus_fault (v : BitVec 2) (r : Fault) : withStatus v (.fault r) = .fault r := rfl
@[simp] theorem withStatus_refused (v : BitVec 2) (r : Refusal) : withStatus v (.refused r) = .refused r := rfl

/-- What commutes with a write of `STATUS` may follow one. -/
theorem andThen_withStatus {v : BitVec 2} {k : State → Host.Outcome State Fault Refusal}
    (hk : ∀ t, k (setStatus v t) = withStatus v (k t)) (o : Host.Outcome State Fault Refusal) :
    andThen (withStatus v o) k = withStatus v (andThen o k) := by
  cases o with
  | next s => exact hk s
  | fault r => rfl
  | refused r => rfl

theorem stopIfStreaming_setStatus (v : BitVec 2) (s : State) :
    stopIfStreaming (setStatus v s) = setStatus v (stopIfStreaming s) :=
  (apply_ite (setStatus v) (s.streaming = true) (emit .stop s) s).symm

theorem startIfStreaming_setStatus (r : Reload) (v : BitVec 2) (s : State) :
    startIfStreaming r (setStatus v s) = setStatus v (startIfStreaming r s) :=
  (apply_ite (setStatus v) (s.streaming = true) (emit (.start s.tableLen r) s) s).symm

theorem regenerate_setStatus (v : BitVec 2) (s : State) :
    regenerate (setStatus v s) = withStatus v (regenerate s) := by
  unfold regenerate
  rw [setStatus_wave, setStatus_percent, countOf_setStatus]
  cases waveformOfCode s.wave with
  | none => rfl
  | some w =>
    dsimp only
    cases synthesize w s.percent.toNat (countOf s) <;> rfl

theorem regenerateIfCountChanged_setStatus (v : BitVec 2) (s : State) :
    regenerateIfCountChanged (setStatus v s) = withStatus v (regenerateIfCountChanged s) := by
  unfold regenerateIfCountChanged
  rw [countOf_setStatus, setStatus_tableLen, regenerate_setStatus]
  split <;> rfl

theorem applyFrequency_setStatus (v : BitVec 2) (s : State) :
    applyFrequency (setStatus v s) = withStatus v (applyFrequency s) := by
  unfold applyFrequency
  rw [stopIfStreaming_setStatus, regenerateIfCountChanged_setStatus, timerReloadReg_setStatus]
  exact andThen_withStatus (fun t => by rw [startIfStreaming_setStatus]; rfl) _

/-- A command started with another `STATUS` ends as it would have, but for the `STATUS` it leaves: the one it started with,
the one with `REJ` set, or the cleared one (R25). -/
theorem exec_setStatus (i : Instr) (v : BitVec 2) (s : State) :
    ∃ u, exec i (setStatus v s) = withStatus u (exec i s) := by
  cases i with
  | nop => exact ⟨v, rfl⟩
  | setw w =>
    simp only [exec, execSetw]
    split
    · exact ⟨v, rfl⟩
    · exact ⟨statusWith .rej v, rfl⟩
  | setp p =>
    simp only [exec, execSetp]
    split
    · exact ⟨v, rfl⟩
    · exact ⟨statusWith .rej v, rfl⟩
  | setf f =>
    simp only [exec, execSetf]
    split
    · exact ⟨v, applyFrequency_setStatus v (setFreq _ s)⟩
    · exact ⟨statusWith .rej v, rfl⟩
  | applyf => exact ⟨v, applyFrequency_setStatus v s⟩
  | synth =>
    refine ⟨v, ?_⟩
    simp only [exec, execSynth, stopIfStreaming_setStatus, regenerate_setStatus]
    exact andThen_withStatus
      (fun t => by rw [timerReloadReg_setStatus, startIfStreaming_setStatus, withStatus_next]) _
  | start =>
    refine ⟨v, ?_⟩
    simp only [exec, execStart, stopIfStreaming_setStatus, regenerate_setStatus]
    exact andThen_withStatus (fun t => rfl) _
  | stop =>
    exact ⟨v, (apply_ite (withStatus v) (s.streaming = true) (.next (setStreaming false (emit .stop s))) (.next s)).symm⟩
  | clrst => exact ⟨statusCleared, rfl⟩

/-! ## What a command does to the table's length -/

/-- After `ApplyFrequency` the table has the band's length, whether it was rewritten or not (R127, R128). -/
theorem tableLen_of_applyFrequency {s t : State} (h : applyFrequency s = .next t) : t.tableLen.toNat = countOf t := by
  rcases applyFrequency_eq_next h with ⟨hlen, rfl⟩ | ⟨-, w, codes, -, hcodes, rfl⟩
  · simpa using hlen.symm
  · simp [length_of_synthesize hcodes]

/-- A command leaves the table alone or leaves one of the band's length (R112, R151). -/
theorem table_kept_or_tableLen_eq_countOf {i : Instr} {s t : State} (h : exec i s = .next t) :
    (t.tableLen = s.tableLen ∧ t.table = s.table) ∨ t.tableLen.toNat = countOf t := by
  rcases exec_eq_next h with ⟨-, rfl⟩ | ⟨w, -, hsetw⟩ | ⟨p, -, hsetp⟩ | ⟨f, -, hsetf⟩ | ⟨-, happly⟩ |
    ⟨-, w, codes, -, hcodes, rfl⟩ | ⟨-, w, codes, -, hcodes, rfl⟩ | ⟨-, hstop⟩ | ⟨-, rfl⟩
  · exact .inl ⟨rfl, rfl⟩
  · rcases hsetw with ⟨-, rfl⟩ | ⟨-, rfl⟩ <;> exact .inl ⟨rfl, rfl⟩
  · rcases hsetp with ⟨-, rfl⟩ | ⟨-, rfl⟩ <;> exact .inl ⟨rfl, rfl⟩
  · rcases hsetf with ⟨-, happly⟩ | ⟨-, rfl⟩
    · exact .inr (tableLen_of_applyFrequency happly)
    · exact .inl ⟨rfl, rfl⟩
  · exact .inr (tableLen_of_applyFrequency happly)
  · exact .inr (by simp [length_of_synthesize hcodes])
  · exact .inr (by simp [length_of_synthesize hcodes])
  · rcases hstop with ⟨-, rfl⟩ | ⟨-, rfl⟩ <;> exact .inl ⟨rfl, rfl⟩
  · exact .inl ⟨rfl, rfl⟩

/-! ## The order of the sink's events -/

theorem alternates_stop {l : List SinkEvent} (h : Alternates l) (hruns : (sinkAfter l).isSome = true) :
    Alternates (l ++ [.stop]) := by
  rw [Alternates, sinkPhase_concat, sinkPhase_of_alternates h, hruns]
  simp [phaseAfter]

theorem alternates_start {l : List SinkEvent} (h : Alternates l) (hstopped : sinkAfter l = none) (n : CellIndex)
    (r : Reload) : Alternates (l ++ [.start n r]) := by
  rw [Alternates, sinkPhase_concat, sinkPhase_of_alternates h, hstopped]
  simp [phaseAfter]

/-! ## What the invariants are about -/

theorem legalParams_of_eq {s t : State} (h : LegalParams s) (hwave : t.wave = s.wave) (hpercent : t.percent = s.percent)
    (hfreq : t.freq = s.freq) : LegalParams t :=
  ⟨hwave ▸ h.wave, hpercent ▸ h.percent, hfreq ▸ h.freq⟩

theorem holdsOneTable_of_eq {s t : State} (h : HoldsOneTable s) (hlen : t.tableLen = s.tableLen)
    (htable : t.table = s.table) : HoldsOneTable t := by
  unfold HoldsOneTable
  rwa [hlen, htable]

/-- `FREQ`, `STREAMING`, the table and the trace are the same in two states: all that I4 to I8 speak of. -/
structure SameTableAndSink (s t : State) : Prop where
  freq : t.freq = s.freq
  streaming : t.streaming = s.streaming
  tableLen : t.tableLen = s.tableLen
  table : t.table = s.table
  trace : t.trace = s.trace

theorem inv_of_sameTableAndSink {s t : State} (h : Inv s) (hparams : LegalParams t) (e : SameTableAndSink s t) :
    Inv t where
  params := hparams
  len := by rw [e.tableLen, countOf_congr e.freq]; exact h.len
  table := fun hlen => holdsOneTable_of_eq (h.table (e.tableLen ▸ hlen)) e.tableLen e.table
  streams := by rw [e.streaming, e.tableLen, e.trace, timerReloadReg_congr e.freq]; exact h.streams
  idles := by rw [e.streaming, e.trace]; exact h.idles
  alternates := e.trace ▸ h.alternates
  memory := e.table ▸ h.memory

theorem inv_setInputs {s : State} (h : Inv s) (l : List PortInput) : Inv (setInputs l s) :=
  inv_of_sameTableAndSink h (legalParams_of_eq h.params rfl rfl rfl) ⟨rfl, rfl, rfl, rfl, rfl⟩

theorem inv_setDelivered {s : State} (h : Inv s) (d : Option Delivered) : Inv (setDelivered d s) :=
  inv_of_sameTableAndSink h (legalParams_of_eq h.params rfl rfl rfl) ⟨rfl, rfl, rfl, rfl, rfl⟩

theorem inv_setStatus {s : State} (h : Inv s) (v : BitVec 2) : Inv (setStatus v s) :=
  inv_of_sameTableAndSink h (legalParams_of_eq h.params rfl rfl rfl) ⟨rfl, rfl, rfl, rfl, rfl⟩

/-- A rejection is precise (R170), so it keeps what says nothing of `STATUS`. -/
theorem inv_reject {s : State} (h : Inv s) (c : RejectCause) : Inv (reject c s) := inv_setStatus h _

/-- An operand that SETP accepts saturates to a legal percent (R142). -/
theorem saturatePercent_legal_of_not_rejected {p : Arg} (h : ¬OperandRejected (.setp p)) :
    LegalPercent (saturatePercent p.toNat) := by
  unfold OperandRejected at h
  apply saturatePercent_legal
  rw [percentStepOk_iff, saturatePercent_eq]
  omega

theorem inv_setWave {s : State} (h : Inv s) {v : BitVec 2} (hv : v.toNat ≤ 2) : Inv (setWave v s) :=
  inv_of_sameTableAndSink h ⟨hv, h.params.percent, h.params.freq⟩ ⟨rfl, rfl, rfl, rfl, rfl⟩

theorem inv_setPercent {s : State} (h : Inv s) {v : BitVec 7} (hv : LegalPercent v.toNat) : Inv (setPercent v s) :=
  inv_of_sameTableAndSink h ⟨h.params.wave, hv, h.params.freq⟩ ⟨rfl, rfl, rfl, rfl, rfl⟩

theorem reset_inv : Inv State.reset where
  params := ⟨by decide, by unfold LegalPercent; decide, by unfold LegalFreq; decide⟩
  len := .inl rfl
  table := fun hlen => absurd rfl hlen
  streams := fun hstreams => absurd hstreams (by decide)
  idles := fun _ => rfl
  alternates := by unfold Alternates; simp [State.reset]
  memory := reset_table_wf

theorem applyReset_inv (s : State) : Inv (applyReset s) := inv_setInputs reset_inv s.inputs

/-! ## The bracket -/

/-- What a command needs of the invariants to refresh the sink: all but that `TABLE_LEN` and the sink's reload agree with
`FREQ`. -/
structure Refreshable (s : State) : Prop where
  params : LegalParams s
  table : s.tableLen ≠ 0 → HoldsOneTable s
  sink : (sinkAfter s.trace).isSome = s.streaming
  alternates : Alternates s.trace
  memory : Memory.wf s.table = true

/-- Inside the bracket: the sink is stopped, and the table is one for the present frequency. -/
structure ReadyToStart (s : State) : Prop where
  params : LegalParams s
  len : s.tableLen.toNat = countOf s
  table : HoldsOneTable s
  stopped : sinkAfter s.trace = none
  alternates : Alternates s.trace
  memory : Memory.wf s.table = true

theorem refreshable_of_inv {s : State} (h : Inv s) : Refreshable s where
  params := h.params
  table := h.table
  sink := by
    cases hs : s.streaming with
    | false => rw [h.idles hs]; rfl
    | true => rw [(h.streams hs).2]; rfl
  alternates := h.alternates
  memory := h.memory

theorem Refreshable.setFreq {s : State} (h : Refreshable s) {v : BitVec 20} (hv : LegalFreq v.toNat) :
    Refreshable (setFreq v s) :=
  ⟨⟨h.params.wave, h.params.percent, hv⟩, h.table, h.sink, h.alternates, h.memory⟩

/-- The first event of the bracket stops a running sink, and is left out where the sink is stopped already. -/
theorem Refreshable.stopped {s : State} (h : Refreshable s) :
    sinkAfter (stopIfStreaming s).trace = none ∧ Alternates (stopIfStreaming s).trace := by
  have hsink := h.sink
  cases hs : s.streaming with
  | false =>
    have hnone : sinkAfter s.trace = none := Option.not_isSome_iff_eq_none.1 (by simp [hsink, hs])
    simpa [hs] using And.intro hnone h.alternates
  | true => simpa [hs] using alternates_stop h.alternates (hsink.trans hs)

/-- A table that has the band's length already needs no rewriting (R127). -/
theorem Refreshable.ready_of_count_eq {s : State} (h : Refreshable s) (hlen : countOf s = s.tableLen.toNat) :
    ReadyToStart (stopIfStreaming s) where
  params := legalParams_of_eq h.params (by simp) (by simp) (by simp)
  len := by simpa using hlen.symm
  table := by
    have hne : s.tableLen ≠ 0 := fun h0 => (countOf_pos s).ne' (by simpa [h0] using hlen)
    exact holdsOneTable_of_eq (h.table hne) (by simp) (by simp)
  stopped := h.stopped.1
  alternates := h.stopped.2
  memory := by simpa using h.memory

theorem holdsOneTable_writeTable {s : State} {w : Waveform} {p : Nat} {codes : List Code} (hp : LegalPercent p)
    (h : synthesize w p (countOf s) = .ok codes) : HoldsOneTable (writeTable codes s) := by
  obtain ⟨hlen, hcells, -⟩ := writeTable_cells h
  refine ⟨w, p, codes, hp, hlen ▸ h, fun i hi => ?_⟩
  rw [hlen] at hi
  rw [hcells i hi, getElem?_of_synthesize h hi]

/-- A regeneration inside the bracket (R112). -/
theorem Refreshable.ready_writeTable {s : State} (h : Refreshable s) {w : Waveform} {codes : List Code}
    (hcodes : synthesize w s.percent.toNat (countOf s) = .ok codes) :
    ReadyToStart (writeTable codes (stopIfStreaming s)) where
  params := legalParams_of_eq h.params (by simp) (by simp) (by simp)
  len := by simp [length_of_synthesize hcodes]
  table := holdsOneTable_writeTable h.params.percent (by simpa using hcodes)
  stopped := h.stopped.1
  alternates := h.stopped.2
  memory := by
    rw [writeTable_table, stopIfStreaming_table]
    exact Memory.wf_storeAll h.memory codes (by rw [length_of_synthesize hcodes]; exact bandCount_le_cap _)

/-- The second event of the bracket restores the invariants. -/
theorem ReadyToStart.inv_startIfStreaming {s : State} (h : ReadyToStart s) :
    Inv (startIfStreaming (timerReloadReg s) s) where
  params := legalParams_of_eq h.params (by simp) (by simp) (by simp)
  len := .inr (by simpa using h.len)
  table := fun _ => holdsOneTable_of_eq h.table (by simp) (by simp)
  streams := by
    have hne : s.tableLen ≠ 0 := fun h0 => (countOf_pos s).ne' (by simp [← h.len, h0])
    intro hs
    rw [startIfStreaming_streaming] at hs
    exact ⟨by simpa using hne, by simp [hs]⟩
  idles := by
    intro hs
    rw [startIfStreaming_streaming] at hs
    simp [hs, h.stopped]
  alternates := by
    cases hs : s.streaming with
    | false => simpa [hs] using h.alternates
    | true => simpa [hs] using alternates_start h.alternates h.stopped s.tableLen (timerReloadReg s)
  memory := by simpa using h.memory

/-- START's event, after which the block streams (R146). -/
theorem ReadyToStart.inv_start {s : State} (h : ReadyToStart s) :
    Inv (emit (.start s.tableLen (timerReloadReg s)) (setStreaming true s)) :=
  ReadyToStart.inv_startIfStreaming (s := setStreaming true s)
    ⟨⟨h.params.wave, h.params.percent, h.params.freq⟩, h.len, h.table, h.stopped, h.alternates, h.memory⟩

/-! ## Every command and every step keeps the invariants -/

/-- R127: `ApplyFrequency` brings the table and the sink into agreement with `FREQ`. -/
theorem Refreshable.inv_applyFrequency {s t : State} (h : Refreshable s) (ht : applyFrequency s = .next t) : Inv t := by
  rcases applyFrequency_eq_next ht with ⟨hlen, rfl⟩ | ⟨-, w, codes, -, hcodes, rfl⟩
  · simpa using (h.ready_of_count_eq hlen).inv_startIfStreaming
  · simpa using (h.ready_writeTable hcodes).inv_startIfStreaming

/-- STOP leaves the sink stopped and the table alone (R147). -/
theorem inv_stop {s : State} (h : Inv s) (hs : s.streaming = true) : Inv (setStreaming false (emit .stop s)) where
  params := ⟨h.params.wave, h.params.percent, h.params.freq⟩
  len := h.len
  table := h.table
  streams := fun hfalse => absurd hfalse (by simp)
  idles := fun _ => by simp
  alternates := alternates_stop h.alternates (by rw [(h.streams hs).2]; rfl)
  memory := h.memory

theorem exec_keeps_inv {i : Instr} {s t : State} (h : Inv s) (ht : exec i s = .next t) : Inv t := by
  have hr := refreshable_of_inv h
  rcases exec_eq_next ht with ⟨-, rfl⟩ | ⟨w, -, hsetw⟩ | ⟨p, -, hsetp⟩ | ⟨f, -, hsetf⟩ | ⟨-, happly⟩ |
    ⟨-, w, codes, -, hcodes, rfl⟩ | ⟨-, w, codes, -, hcodes, rfl⟩ | ⟨-, hstop⟩ | ⟨-, rfl⟩
  · exact h
  · rcases hsetw with ⟨hw, rfl⟩ | ⟨-, rfl⟩
    · exact inv_setWave h (by simp; omega)
    · exact inv_reject h .rej
  · rcases hsetp with ⟨hp, rfl⟩ | ⟨-, rfl⟩
    · have hlegal := saturatePercent_legal_of_not_rejected hp
      refine inv_setPercent h ?_
      rw [BitVec.toNat_ofNat, Nat.mod_eq_of_lt (by unfold LegalPercent at hlegal; omega)]
      exact hlegal
    · exact inv_reject h .rej
  · rcases hsetf with ⟨hf, happly⟩ | ⟨-, rfl⟩
    · refine (hr.setFreq ?_).inv_applyFrequency happly
      rw [BitVec.toNat_ofNat, Nat.mod_eq_of_lt (by unfold LegalFreq at hf; omega)]
      exact hf
    · exact inv_reject h .rej
  · exact hr.inv_applyFrequency happly
  · simpa using (hr.ready_writeTable hcodes).inv_startIfStreaming
  · simpa using (hr.ready_writeTable hcodes).inv_start
  · rcases hstop with ⟨hs, rfl⟩ | ⟨-, rfl⟩
    · exact inv_stop h hs
    · exact h
  · exact inv_setStatus h statusCleared

theorem takeCommand_keeps_inv {w : Word} {s t : State} (h : Inv s) (ht : takeCommand w s = .next t) : Inv t := by
  rcases takeCommand_eq_next.1 ht with ⟨e, -, rfl⟩ | ⟨i, -, hexec⟩
  · exact inv_reject h .ill
  · exact exec_keeps_inv h hexec

theorem serve_keeps_inv {x : PortInput} {s t : State} (h : Inv s) (ht : serve x s = .next t) : Inv t := by
  rcases serve_eq_next ht with ⟨w, -, hcommand⟩ | ⟨a, -, rfl⟩ | ⟨i, v, -, -, -, rfl⟩ | ⟨i, v, len, r, -, -, -, -, rfl⟩ |
    ⟨-, rfl⟩
  · exact takeCommand_keeps_inv h hcommand
  · exact inv_setDelivered h _
  · exact inv_setDelivered h _
  · exact inv_setDelivered h _
  · exact applyReset_inv s

/-! ## The running sink -/

/-- While the sink runs, its `len` is `TABLE_LEN`, and the table holds one synthesized table (I5 to I7). -/
theorem running_len {s : State} {len : CellIndex} {r : Reload} (h : Inv s) (hsink : sinkAfter s.trace = some (len, r)) :
    s.tableLen = len ∧ HoldsOneTable s := by
  cases hs : s.streaming with
  | false => rw [h.idles hs] at hsink; cases hsink
  | true =>
    obtain ⟨hne, hstart⟩ := h.streams hs
    rw [hstart, Option.some.injEq, Prod.mk.injEq] at hsink
    exact ⟨hsink.1, h.table hne⟩

/-! ## The obligations -/

/-- Settles O48, by cases on the pending move and, for a command word, on the command. -/
theorem stepKeepsInvariants : Obligations.StepKeepsInvariants := by
  intro s t h ht
  rcases step_eq_next.1 ht with ⟨-, rfl⟩ | ⟨x, rest, -, hserve⟩
  · exact h
  · exact serve_keeps_inv (inv_setInputs h rest) hserve

/-- Settles O22: every command commutes with a write of `STATUS`, up to the `STATUS` it leaves. -/
theorem noCommandReadsStatus : Obligations.NoCommandReadsStatus := by
  intro i s v
  obtain ⟨u, hu⟩ := exec_setStatus i v s
  change exec i { s with status := v } = _ at hu
  refine ⟨fun t ht => ⟨setStatus u t, ?_, rfl⟩, fun r hr => ?_, fun r hr => ?_⟩
  · rw [hu, ht, withStatus_next]
  · rw [hu, hr, withStatus_fault]
  · rw [hu, hr, withStatus_refused]

/-- Settles O27, by the two bounds of the eight bands. -/
theorem sampleRateBounds : Obligations.SampleRateBounds := by
  refine ⟨fun f ⟨hlo, hhi⟩ => ⟨le_sampleRate hlo, ?_⟩, by decide, by decide, by decide, by decide, sampleRateReg_toNat⟩
  have := sampleRate_le f
  omega

/-- Settles O42: the sink's `len` is the length of the one table that I5 gives, so each read finds one of its codes. -/
theorem runningSinkReadsOneTable : Obligations.RunningSinkReadsOneTable := by
  intro s len r h hsink
  obtain ⟨rfl, w, p, codes, hp, hcodes, hcells⟩ := running_len h hsink
  refine ⟨w, p, codes, hp, hcodes, fun i hi => ⟨_, getElem?_of_synthesize hcodes hi, ?_⟩⟩
  have hcell := (hcells i.toNat hi).trans (getElem?_of_synthesize hcodes hi)
  exact sinkReadCell_of_running hsink hi (tableRead_eq_ok.2 ⟨hi, _, hcell, rfl⟩)

/-- Settles O52: a command that does not leave the table alone leaves one of the band's length, which is not 0. -/
theorem tableLenStaysNonzero : Obligations.TableLenStaysNonzero := by
  intro i s t ht hzero
  rcases table_kept_or_tableLen_eq_countOf ht with ⟨hlen, htable⟩ | hcount
  · exact ⟨hlen ▸ hzero, htable⟩
  · exact absurd (countOf_pos t) (by simp [← hcount, hzero])

/-- Settles O39, address by address. -/
theorem registerReadPortMap : Obligations.RegisterReadPortMap := by
  refine ⟨fun s => ⟨?_, ?_, ?_, ?_, rfl, ?_, ?_, ?_, ?_, fun a ha => registerValue_reserved ha s⟩, fun s a rest h => ?_⟩
  · exact BitVec.toNat_setWidth_of_le (by decide)
  · exact BitVec.toNat_setWidth_of_le (by decide)
  · exact BitVec.toNat_setWidth_of_le (by decide)
  · exact (BitVec.toNat_setWidth_of_le (by decide)).trans (sampleCountReg_toNat s)
  · exact (BitVec.toNat_setWidth_of_le (by decide)).trans (sampleRateReg_toNat s)
  · exact BitVec.toNat_setWidth_of_le (by decide)
  · change ((BitVec.ofBool s.streaming).setWidth 32).toNat = _
    cases s.streaming <;> rfl
  · exact BitVec.toNat_setWidth_of_le (by decide)
  · rw [step_of_inputs h]; rfl

/-- Settles O45: R37's table, row by row. -/
theorem resetValues : Obligations.ResetValues :=
  ⟨rfl, rfl, rfl, rfl, rfl, rfl, Memory.read_nil, rfl, by decide, rfl, by decide⟩

/-- Settles O47: with no table, no event and no streaming, only the parameter values are left to check. -/
theorem resetSatisfiesInvariants : Obligations.ResetSatisfiesInvariants := reset_inv

end Sys2Proof.Machine
end

section
/-! PROOFS. The table of 20_memory.md: its reads and their faults, the loop of writes behind a regeneration, and when a
command may change it.

Every command falls under one of three heads: it leaves the table and the sink alone (`SameTableAndSink`), it is the STOP
of a stream, or it refreshes (`Refreshed`): a `Stop` if streaming, then a table of the band's length, kept or stored anew,
then a `Start` if streaming. -/

namespace Sys2Proof.Machine

open Sys2Proof.Safety

/-! ## The loop of single writes -/

/-- The loop of R112 puts its codes over what the memory held. -/
theorem Memory.read_writeEach (m : Memory) (i : Nat) (codes : List Code) (k : Nat) :
    Memory.read (Memory.writeEach m i codes) k =
      (Memory.read (Memory.cellsFrom i codes) k).or (Memory.read m k) := by
  induction codes generalizing m i with
  | nil => simp [Memory.writeEach, Memory.cellsFrom]
  | cons v codes ih =>
    rw [Memory.writeEach, ih, Memory.cellsFrom, Memory.read_cons]
    by_cases hk : k = i
    · subst hk
      have hlater : Memory.read (Memory.cellsFrom (k + 1) codes) k = none := by
        rw [Memory.read_cellsFrom, if_neg (by omega)]
      simp [hlater]
    · rw [Memory.read_write_other m v hk, if_neg hk]

theorem Memory.read_storeAll_eq_read_writeEach (m : Memory) (codes : List Code) (k : Nat) :
    Memory.read (Memory.storeAll m codes) k = Memory.read (Memory.writeEach m 0 codes) k := by
  rw [Memory.read_storeAll, Memory.read_writeEach, Memory.read_cellsFrom, if_pos (Nat.zero_le k), Nat.sub_zero]
  by_cases hk : k < codes.length
  · simp [hk]
  · simp [hk]

/-! ## The table read port -/

theorem tableRead_range {i : CellIndex} {s : State} (h : s.tableLen.toNat ≤ i.toNat) :
    tableRead i s = .error .tableRange := if_pos h

theorem tableRead_unwritten {i : CellIndex} {s : State} (h : i.toNat < s.tableLen.toNat)
    (hread : Memory.read s.table i.toNat = none) : tableRead i s = .error .unwritten := by
  rw [tableRead, if_neg (Nat.not_le.2 h), hread]

theorem tableRead_written {i : CellIndex} {s : State} {v : Code} (h : i.toNat < s.tableLen.toNat)
    (hread : Memory.read s.table i.toNat = some v) : tableRead i s = .ok (v.setWidth 16) :=
  tableRead_eq_ok.2 ⟨h, v, hread, rfl⟩

theorem hostReadCell_of_streaming {i : CellIndex} {s : State} (h : s.streaming = true) :
    hostReadCell i s = .fault .hostReadWhileStreaming := if_pos h

theorem hostReadCell_of_idle {i : CellIndex} {s : State} (h : s.streaming = false) :
    hostReadCell i s = deliverCell (tableRead i s) s := if_neg (by simp [h])

theorem sinkReadCell_of_stopped {i : CellIndex} {s : State} (h : sinkAfter s.trace = none) :
    sinkReadCell i s = .fault .sinkReadWhileStopped := by
  rw [sinkReadCell, h]

theorem sinkReadCell_above_len {i len : CellIndex} {r : Reload} {s : State} (h : sinkAfter s.trace = some (len, r))
    (hi : len.toNat ≤ i.toNat) : sinkReadCell i s = .fault .tableRange := by
  simp only [sinkReadCell, h, if_pos hi]

theorem sinkReadCell_below_len {i len : CellIndex} {r : Reload} {s : State} (h : sinkAfter s.trace = some (len, r))
    (hi : i.toNat < len.toNat) : sinkReadCell i s = deliverCell (tableRead i s) s := by
  simp only [sinkReadCell, h, if_neg (Nat.not_le.2 hi)]

/-- A pending host read of a cell while the table is quiescent: `TableRead` decides (R54). -/
theorem step_hostReadCell_of_idle {s : State} {i : CellIndex} {rest : List PortInput}
    (h : s.inputs = .hostReadCell i :: rest) (hidle : s.streaming = false) :
    step s = deliverCell (tableRead i s) (setInputs rest s) :=
  (step_of_inputs h).trans (hostReadCell_of_idle hidle)

/-- A pending sink read below the `len` of the last `Start`: `TableRead` decides (R59). -/
theorem step_sinkReadCell_below_len {s : State} {i len : CellIndex} {r : Reload} {rest : List PortInput}
    (h : s.inputs = .sinkReadCell i :: rest) (hsink : sinkAfter s.trace = some (len, r)) (hi : i.toNat < len.toNat) :
    step s = deliverCell (tableRead i s) (setInputs rest s) :=
  (step_of_inputs h).trans (sinkReadCell_below_len hsink hi)

/-! ## The byte view -/

/-- The byte at the lower (`upper = false`) or the higher address of a cell that `TableRead` delivers (R55). -/
theorem tableByteAt_of_tableRead {i : CellIndex} {s : State} {v : PortCell} (hi : i.toNat < 4000)
    (hread : tableRead i s = .ok v) (upper : Bool) :
    tableByteAt (2 * i.toNat + upper.toNat) s = .ok (cellByte tableByteOrder upper v) := by
  have hbit : upper.toNat < 2 := upper.toNat_lt
  have hcell : (2 * i.toNat + upper.toNat) / 2 = i.toNat := by omega
  have hodd : (2 * i.toNat + upper.toNat) % 2 = upper.toNat := by omega
  rw [tableByteAt, hcell, hodd, if_neg (Nat.not_le.2 hi), BitVec.ofNat_toNat, BitVec.setWidth_eq, hread]
  cases upper <;> rfl

/-- A cell is its two bytes, the one at the lower address counting once (R55). -/
theorem cellByte_little_toNat (v : PortCell) :
    (cellByte .little false v).toNat + 256 * (cellByte .little true v).toNat = v.toNat := by
  have hv : v.toNat < 2 ^ 16 := v.isLt
  simp only [cellByte, BitVec.extractLsb'_toNat, Nat.shiftRight_eq_div_pow]
  omega

/-! ## What a command does to the table and the sink -/

/-- The refresh of R112, R127 and R148: a `Stop` if streaming, a table of the band's length, kept if it has that length
already or else stored anew, and a `Start` if streaming. -/
structure Refreshed (s t : State) : Prop where
  len : t.tableLen.toNat = countOf t
  table : t.table = s.table ∨ ∃ codes, codes.length = countOf t ∧ t.table = Memory.storeAll s.table codes
  streaming : s.streaming = true → t.streaming = true
  trace : t.trace = s.trace ++ (if s.streaming then [.stop] else []) ++
    (if t.streaming then [.start t.tableLen (timerReloadReg t)] else [])

/-- The write of `FREQ` that SETF makes first touches neither the table nor the sink. -/
theorem Refreshed.of_setFreq {v : BitVec 20} {s t : State} (h : Refreshed (setFreq v s) t) : Refreshed s t :=
  ⟨h.len, h.table, h.streaming, h.trace⟩

/-- The bracket around a regeneration, as SYNTH, SETF and APPLYF do it. -/
theorem refreshed_writeTable {s : State} {codes : List Code} (h : codes.length = countOf s) :
    Refreshed s (startIfStreaming (timerReloadReg s) (writeTable codes (stopIfStreaming s))) where
  len := by simp [h]
  table := .inr ⟨codes, by simpa using h, by simp⟩
  streaming := by simp
  trace := by simp

/-- START's regeneration, after which the block streams in any case (R146). -/
theorem refreshed_start {s : State} {codes : List Code} (h : codes.length = countOf s) :
    Refreshed s (emit (.start (BitVec.ofNat 12 codes.length) (timerReloadReg s))
      (setStreaming true (writeTable codes (stopIfStreaming s)))) where
  len := by simp [h]
  table := .inr ⟨codes, by simpa using h, by simp⟩
  streaming := by simp
  trace := by simp

theorem refreshed_applyFrequency {s t : State} (h : applyFrequency s = .next t) : Refreshed s t := by
  rcases applyFrequency_eq_next h with ⟨hlen, rfl⟩ | ⟨-, w, codes, -, hcodes, rfl⟩
  · exact ⟨by simpa using hlen.symm, .inl (by simp), by simp, by simp⟩
  · exact refreshed_writeTable (length_of_synthesize hcodes)

/-- The three heads under which every command falls (R151). -/
theorem exec_keeps_stops_or_refreshes {i : Instr} {s t : State} (h : exec i s = .next t) :
    SameTableAndSink s t ∨ (i = .stop ∧ s.streaming = true ∧ t = setStreaming false (emit .stop s)) ∨
      Refreshed s t := by
  have hreject : SameTableAndSink s (reject .rej s) := ⟨rfl, rfl, rfl, rfl, rfl⟩
  rcases exec_eq_next h with ⟨-, rfl⟩ | ⟨w, -, hsetw⟩ | ⟨p, -, hsetp⟩ | ⟨f, -, hsetf⟩ | ⟨-, happly⟩ |
    ⟨-, w, codes, -, hcodes, rfl⟩ | ⟨-, w, codes, -, hcodes, rfl⟩ | ⟨rfl, hstop⟩ | ⟨-, rfl⟩
  · exact .inl ⟨rfl, rfl, rfl, rfl, rfl⟩
  · rcases hsetw with ⟨-, rfl⟩ | ⟨-, rfl⟩
    · exact .inl ⟨rfl, rfl, rfl, rfl, rfl⟩
    · exact .inl hreject
  · rcases hsetp with ⟨-, rfl⟩ | ⟨-, rfl⟩
    · exact .inl ⟨rfl, rfl, rfl, rfl, rfl⟩
    · exact .inl hreject
  · rcases hsetf with ⟨-, happly⟩ | ⟨-, rfl⟩
    · exact .inr (.inr (refreshed_applyFrequency happly).of_setFreq)
    · exact .inl hreject
  · exact .inr (.inr (refreshed_applyFrequency happly))
  · exact .inr (.inr (refreshed_writeTable (length_of_synthesize hcodes)))
  · exact .inr (.inr (refreshed_start (length_of_synthesize hcodes)))
  · rcases hstop with ⟨hs, rfl⟩ | ⟨-, rfl⟩
    · exact .inr (.inl ⟨rfl, hs, rfl⟩)
    · exact .inl ⟨rfl, rfl, rfl, rfl, rfl⟩
  · exact .inl ⟨rfl, rfl, rfl, rfl, rfl⟩

/-- For the table alone two heads are left: it is kept, or a table of the band's length is stored (R112). -/
theorem exec_table_kept_or_stored {i : Instr} {s t : State} (h : exec i s = .next t) :
    t.table = s.table ∨
      t.tableLen.toNat = countOf t ∧ ∃ codes, codes.length = countOf t ∧ t.table = Memory.storeAll s.table codes := by
  rcases exec_keeps_stops_or_refreshes h with hsame | ⟨-, -, rfl⟩ | hrefresh
  · exact .inl hsame.table
  · exact .inl rfl
  · exact hrefresh.table.imp_right fun hstored => ⟨hrefresh.len, hstored⟩

/-! ## The canonical form -/

/-- A stored table is no longer than a band count, so it stays in the table space of R51. -/
theorem exec_keeps_wf {i : Instr} {s t : State} (hwf : Memory.wf s.table = true) (h : exec i s = .next t) :
    Memory.wf t.table = true := by
  rcases exec_table_kept_or_stored h with htable | ⟨-, codes, hlen, htable⟩
  · rwa [htable]
  · rw [htable]
    exact Memory.wf_storeAll hwf codes (hlen ▸ bandCount_le_cap _)

theorem takeCommand_keeps_wf {w : Word} {s t : State} (hwf : Memory.wf s.table = true) (h : takeCommand w s = .next t) :
    Memory.wf t.table = true := by
  rcases takeCommand_eq_next.1 h with ⟨e, -, rfl⟩ | ⟨i, -, hexec⟩
  · exact hwf
  · exact exec_keeps_wf hwf hexec

theorem serve_keeps_wf {x : PortInput} {s t : State} (hwf : Memory.wf s.table = true) (h : serve x s = .next t) :
    Memory.wf t.table = true := by
  rcases serve_eq_next h with ⟨w, -, hcommand⟩ | ⟨a, -, rfl⟩ | ⟨i, v, -, -, -, rfl⟩ | ⟨i, v, len, r, -, -, -, -, rfl⟩ |
    ⟨-, rfl⟩
  · exact takeCommand_keeps_wf hwf hcommand
  · exact hwf
  · exact hwf
  · exact hwf
  · exact reset_table_wf

/-! ## The running sink -/

/-- I7: the sink runs only while the block streams. -/
theorem streaming_of_running {s : State} (h : Inv s) (hsink : sinkAfter s.trace ≠ none) : s.streaming = true := by
  cases hs : s.streaming with
  | false => exact absurd (h.idles hs) hsink
  | true => rfl

/-! ## The obligations -/

/-- Settles O24: a changed table was stored with as many codes as the band counts, and the cells above are none of them. -/
theorem cellsAboveTheTableAreKept : Obligations.CellsAboveTheTableAreKept := by
  intro i s t ht hne
  rcases exec_table_kept_or_stored ht with htable | ⟨hlen, codes, hcodes, htable⟩
  · exact absurd htable hne
  · refine ⟨hlen, fun a (ha : countOf t ≤ a) => ?_⟩
    rw [htable, Memory.read_storeAll, if_neg (by omega)]

/-- Settles O38: both memories are in canonical form and read the same, so they are the same data. -/
theorem tableStoreIsTheWriteLoop : Obligations.TableStoreIsTheWriteLoop := by
  intro m codes hwf hcap
  have hloop := Memory.wf_writeEach hwf codes 0 (by simpa using hcap)
  exact Memory.eq_of_read_eq (Memory.wf_storeAll hwf codes hcap) hloop (Memory.read_storeAll_eq_read_writeEach m codes)

/-- Settles O43: while the sink runs the block streams, so a refresh has both its events. -/
theorem tableChangesOnlyInsideTheBracket : Obligations.TableChangesOnlyInsideTheBracket := by
  intro i s t hinv hsink ht
  have hs := streaming_of_running hinv hsink
  rcases exec_keeps_stops_or_refreshes ht with hsame | ⟨rfl, -, rfl⟩ | hrefresh
  · exact .inl ⟨hsame.trace, hsame.table, hsame.tableLen, hsame.streaming.trans hs⟩
  · exact .inr (.inl ⟨rfl, rfl, rfl, rfl, rfl⟩)
  · have ht' := hrefresh.streaming hs
    have htrace := hrefresh.trace
    rw [if_pos hs, if_pos ht', List.append_assoc] at htrace
    exact .inr (.inr ⟨htrace, hrefresh.len, ht'⟩)

/-- Settles O51, by cases on the pending move and, for a command word, on what the command does to the table. -/
theorem stepKeepsMemoryForm : Obligations.StepKeepsMemoryForm := by
  intro s t hwf ht
  rcases step_eq_next.1 ht with ⟨-, rfl⟩ | ⟨x, rest, -, hserve⟩
  · exact hwf
  · exact serve_keeps_wf (s := setInputs rest s) hwf hserve

/-- Settles O40: the check of `STREAMING`, then the three answers of `TableRead`. -/
theorem hostTableReadOutcomes : Obligations.HostTableReadOutcomes := by
  refine fun s i rest h => ⟨fun hs => ?_, fun hs hrange => ?_, fun hs hlt hread => ?_, fun v hs hlt hread => ?_⟩
  · exact (step_of_inputs h).trans (hostReadCell_of_streaming hs)
  · rw [step_hostReadCell_of_idle h hs, tableRead_range hrange, deliverCell]
  · rw [step_hostReadCell_of_idle h hs, tableRead_unwritten hlt hread, deliverCell]
  · rw [step_hostReadCell_of_idle h hs, tableRead_written hlt hread]; rfl

/-- Settles O41: the checks of the sink and of its `len`, then the three answers of `TableRead`. -/
theorem sinkTableReadOutcomes : Obligations.SinkTableReadOutcomes := by
  refine fun s i rest h => ⟨fun hsink => ?_, fun len r hsink hlen => ?_, fun len r hsink hlen hrange => ?_,
    fun len r hsink hlen hlt hread => ?_, fun len r v hsink hlen hlt hread => ?_⟩
  · exact (step_of_inputs h).trans (sinkReadCell_of_stopped hsink)
  · exact (step_of_inputs h).trans (sinkReadCell_above_len hsink hlen)
  · rw [step_sinkReadCell_below_len h hsink hlen, tableRead_range hrange, deliverCell]
  · rw [step_sinkReadCell_below_len h hsink hlen, tableRead_unwritten hlt hread, deliverCell]
  · rw [step_sinkReadCell_below_len h hsink hlen, tableRead_written hlt hread]; rfl

/-- Settles O44: the bytes at the two addresses of a cell, and their sum in the platform's byte order. -/
theorem cellBytesAreLittleEndian : Obligations.CellBytesAreLittleEndian := fun _ _ v hi hread =>
  ⟨cellByte tableByteOrder false v, cellByte tableByteOrder true v, tableByteAt_of_tableRead hi hread false,
    tableByteAt_of_tableRead hi hread true, cellByte_little_toNat v⟩

end Sys2Proof.Machine
end

section
/-! PROOFS. The command words of 30_encoding.md: decoder, encoder, match and mask rows and assembler say the same thing.

A word is its opcode field put above its operand field (R72). A mnemonic holds the words with its opcode and, where it takes
no operand, a zero operand field (`Mnemonic.Holds`). The decoder is determined on every word: a held word decodes to its
mnemonic's command, and the other words of the nine opcodes and those of the reserved opcodes are illegal. The obligations
compare the encoder, the rows of R73 and the assembler's words with that. -/

namespace Sys2Proof

open Sys2Proof.Laws Sys2Proof.Machine

/-! ## The two fields of a word -/

@[simp] theorem argField_append (op : Opcode) (arg : Arg) : argField (op ++ arg : Word) = arg :=
  BitVec.extractLsb'_append_eq_right

/-- R72: the two fields are the whole word. -/
theorem opField_append_argField (w : Word) : (opField w ++ argField w : Word) = w :=
  BitVec.extractLsb'_append_extractLsb'

theorem word_eq_append_iff {w : Word} {op : Opcode} {arg : Arg} :
    w = (op ++ arg : Word) ↔ opField w = op ∧ argField w = arg := by
  constructor
  · rintro rfl
    exact ⟨opField_append op arg, argField_append op arg⟩
  · rintro ⟨rfl, rfl⟩
    exact (opField_append_argField w).symm

/-! ## The words of a mnemonic -/

/-- The words of a mnemonic: its opcode, and a zero operand field where it takes no operand (R73 to R75). -/
def Mnemonic.Holds (m : Mnemonic) (w : Word) : Prop :=
  opField w = opcodeOf m ∧ (m.takesOperand = true ∨ argField w = 0)

/-- The command of a mnemonic, with the operand where it takes one (R74, R75). -/
def Mnemonic.command (m : Mnemonic) (arg : Arg) : Instr :=
  match m with
  | .nop => .nop
  | .setw => .setw arg
  | .setp => .setp arg
  | .setf => .setf arg
  | .applyf => .applyf
  | .synth => .synth
  | .start => .start
  | .stop => .stop
  | .clrst => .clrst

@[simp] theorem mnemonic_command (m : Mnemonic) (arg : Arg) : (m.command arg).mnemonic = m := by
  cases m <;> rfl

@[simp] theorem command_mnemonic_operandOf (i : Instr) : i.mnemonic.command (operandOf i) = i := by
  cases i <;> rfl

/-- A command keeps the operand it is built with, unless its mnemonic drops it. -/
theorem operandOf_command {m : Mnemonic} {arg : Arg} (h : m.takesOperand = true ∨ arg = 0) :
    operandOf (m.command arg) = arg := by
  cases m <;> simp_all [Mnemonic.takesOperand, Mnemonic.command, operandOf]

theorem takesOperand_or_operandOf_eq_zero (i : Instr) : i.mnemonic.takesOperand = true ∨ operandOf i = 0 := by
  cases i <;> simp [Instr.mnemonic, Mnemonic.takesOperand, operandOf]

theorem holds_append {m : Mnemonic} {arg : Arg} (h : m.takesOperand = true ∨ arg = 0) :
    m.Holds (opcodeOf m ++ arg : Word) := by
  simpa [Mnemonic.Holds, opField_append] using h

/-- A held word is the word of the mnemonic's command with the word's operand field. -/
theorem encode_command_of_holds {m : Mnemonic} {w : Word} (h : m.Holds w) : encode (m.command (argField w)) = w := by
  obtain ⟨hop, harg⟩ := h
  rw [encode, mnemonic_command, operandOf_command harg, ← hop, opField_append_argField]

/-- The opcodes tell the mnemonics apart. -/
theorem mnemonic_eq_of_holds {m m' : Mnemonic} {w : Word} (h : m.Holds w) (h' : m'.Holds w) : m = m' :=
  (opcodeOf_eq_iff m m').1 (h.1.symm.trans h'.1)

/-- Below 9 every opcode is a mnemonic's (R73). -/
theorem exists_opcodeOf_eq {op : Opcode} (h : op.toNat < 9) : ∃ m, op = opcodeOf m := by
  have hall : ∀ k < 9, ∃ r ∈ opcodeRows, BitVec.ofNat 8 k = opcodeOf r.mnemonic := by decide
  obtain ⟨r, -, hr⟩ := hall op.toNat h
  exact ⟨r.mnemonic, by rwa [BitVec.ofNat_toNat, BitVec.setWidth_eq] at hr⟩

theorem opcodeOf_toNat_lt (m : Mnemonic) : (opcodeOf m).toNat < 9 := by
  cases m <;> decide

/-! ## The decoder -/

/-- R76 at the opcode of a mnemonic. -/
theorem decode_of_opField_eq {m : Mnemonic} {w : Word} (h : opField w = opcodeOf m) :
    decode w = if m.takesOperand = true ∨ argField w = 0 then .ok (m.command (argField w)) else .error .nonzeroArg := by
  cases m <;> simp [decode, h, opcodeOf, needZeroArg, Mnemonic.takesOperand, Mnemonic.command]

theorem decode_of_holds {m : Mnemonic} {w : Word} (h : m.Holds w) : decode w = .ok (m.command (argField w)) := by
  rw [decode_of_opField_eq h.1, if_pos h.2]

theorem decode_append {m : Mnemonic} {arg : Arg} (h : m.takesOperand = true ∨ arg = 0) :
    decode (opcodeOf m ++ arg : Word) = .ok (m.command arg) := by
  rw [decode_of_holds (holds_append h), argField_append]

/-- R77's first check. -/
theorem decode_of_reserved {w : Word} (h : 9 ≤ (opField w).toNat) : decode w = .error .reservedOpcode := by
  have hne (op : Opcode) (hop : op.toNat < 9) : opField w ≠ op := by
    rintro rfl
    omega
  simp [decode, hne]

/-- The legal words are those that a mnemonic holds. -/
theorem decode_eq_ok_iff {w : Word} {i : Instr} :
    decode w = .ok i ↔ i.mnemonic.Holds w ∧ i = i.mnemonic.command (argField w) := by
  refine ⟨fun h => ?_, fun ⟨hm, hi⟩ => by rw [decode_of_holds hm, ← hi]⟩
  rcases Nat.lt_or_ge (opField w).toNat 9 with hlt | hge
  · obtain ⟨m, hm⟩ := exists_opcodeOf_eq hlt
    rw [decode_of_opField_eq hm] at h
    split at h
    case isTrue harg =>
      cases h
      simpa [Mnemonic.Holds] using ⟨hm, harg⟩
    case isFalse => cases h
  · rw [decode_of_reserved hge] at h
    cases h

theorem exists_decode_eq_ok_iff {m : Mnemonic} {w : Word} :
    (∃ i, decode w = .ok i ∧ i.mnemonic = m) ↔ m.Holds w := by
  refine ⟨?_, fun h => ⟨_, decode_of_holds h, mnemonic_command m _⟩⟩
  rintro ⟨i, hi, rfl⟩
  exact (decode_eq_ok_iff.1 hi).1

/-- The mnemonics without operand, by their opcode numbers (R75). -/
theorem takesOperand_eq_false_iff (m : Mnemonic) :
    m.takesOperand = false ↔ (opcodeOf m).toNat ∈ [0, 4, 5, 6, 7, 8] := by
  cases m <;> decide

/-- R78: the illegal words. -/
theorem exists_decode_eq_error_iff (w : Word) : (∃ e, decode w = .error e) ↔
    (9 ≤ (opField w).toNat ∨ ((opField w).toNat ∈ [0, 4, 5, 6, 7, 8] ∧ argField w ≠ 0)) := by
  rcases Nat.lt_or_ge (opField w).toNat 9 with hlt | hge
  · obtain ⟨m, hm⟩ := exists_opcodeOf_eq hlt
    have hnot : ¬ 9 ≤ (opcodeOf m).toNat := Nat.not_le.2 (opcodeOf_toNat_lt m)
    rw [decode_of_opField_eq hm, hm, ← takesOperand_eq_false_iff]
    split
    case isTrue harg => simpa [hnot, or_iff_not_imp_left] using harg
    case isFalse harg => simpa [hnot] using harg
  · simp [decode_of_reserved hge, hge]

/-! ## The rows of R73 -/

/-- The two shapes of a row. -/
theorem row_bits : ∀ r ∈ opcodeRows, r.matchBits = (opcodeOf r.mnemonic ++ (0 : Arg) : Word) ∧
    r.mask = if r.mnemonic.takesOperand then 0xFF000000 else 0xFFFFFFFF := by decide

theorem exists_row (m : Mnemonic) : ∃ r ∈ opcodeRows, r.mnemonic = m := by
  cases m <;> decide

/-- A row's mask and match pick the words of its mnemonic. -/
theorem masked_eq_matchBits_iff {r : OpcodeRow} (hr : r ∈ opcodeRows) (w : Word) :
    w &&& r.mask = r.matchBits ↔ r.mnemonic.Holds w := by
  obtain ⟨hmatch, hmask⟩ := row_bits r hr
  have hmasked := masked_op (opField w) (argField w)
  rw [opField_append_argField] at hmasked
  rw [hmatch, hmask, Mnemonic.Holds]
  cases r.mnemonic.takesOperand with
  | false => rw [if_neg Bool.false_ne_true, masked_all, word_eq_append_iff]; simp
  | true => rw [if_pos rfl, hmasked, BitVec.append_left_inj]; simp

theorem rows_mnemonic_pairwise_ne : opcodeRows.Pairwise (fun a b => a.mnemonic ≠ b.mnemonic) := by decide

/-! ## The assembler's words -/

/-- R80's `(op << 24) OR n` is the opcode above the operand. -/
theorem append_eq_shiftLeft_or (op : Opcode) (arg : Arg) :
    (op ++ arg : Word) = op.setWidth 32 <<< 24 ||| arg.setWidth 32 :=
  (BitVec.setWidth_eq _).symm.trans BitVec.setWidth_append_eq_shiftLeft_setWidth_or

theorem termWord_withOperand (m : Mnemonic) {n : Nat} (h : n < 2 ^ 24) :
    termWord (.withOperand m n) = (opcodeOf m ++ BitVec.ofNat 24 n : Word) := by
  rw [termWord, append_eq_shiftLeft_or, BitVec.setWidth_ofNat_of_le_of_lt (by decide) h]

theorem termWord_bare (m : Mnemonic) : termWord (.bare m) = (opcodeOf m ++ (0 : Arg) : Word) := by
  cases m <;> decide

/-- `(op << 24) OR n` as a sum. -/
theorem append_ofNat_eq_ofNat (op : Opcode) {n : Nat} (h : n < 2 ^ 24) :
    (op ++ BitVec.ofNat 24 n : Word) = BitVec.ofNat 32 (op.toNat * 2 ^ 24 + n) := by
  apply BitVec.eq_of_toNat_eq
  have hop := op.isLt
  rw [BitVec.toNat_append, BitVec.toNat_ofNat, BitVec.toNat_ofNat, Nat.mod_eq_of_lt h,
    ← Nat.shiftLeft_add_eq_or_of_lt h, Nat.shiftLeft_eq, Nat.mod_eq_of_lt (by omega)]

theorem assembleTerm_of_wellFormed {t : AsmTerm} (h : t.wellFormed = true) : assembleTerm t = some (termWord t) :=
  if_pos h

end Sys2Proof

namespace Sys2Proof.Machine

/-! ## The command port -/

/-- R78 at the port. -/
theorem takeCommand_of_illegal {w : Word} {e : IllegalWord} (h : decode w = .error e) (s : State) :
    takeCommand w s = .next (reject .ill s) := by
  rw [takeCommand, h]

/-- R140 at the port. -/
theorem takeCommand_of_legal {w : Word} {i : Instr} (h : decode w = .ok i) (s : State) :
    takeCommand w s = exec i s := by
  rw [takeCommand, h]

/-- The placed word is the whole pending word: its 32 bits are those of the number. -/
theorem withFetchWord_inputs (s : State) (w : Word) : (s.withFetchWord 32 w.toNat).inputs = .command w :: s.inputs := by
  simp [State.withFetchWord, presentWord, Nat.mod_eq_of_lt w.isLt]

/-! ## The obligations -/

/-- Settles O1: the mnemonic of a command holds its word, with the command's operand in the operand field. -/
theorem decodeOfEncode : Obligations.DecodeOfEncode := fun i => by
  rw [encode, decode_append (takesOperand_or_operandOf_eq_zero i), command_mnemonic_operandOf]

/-- Settles O2: a legal word is held by its command's mnemonic, and there is one word of each command. -/
theorem encodeOfDecoded : Obligations.EncodeOfDecoded := by
  intro w i h
  obtain ⟨hm, hi⟩ := decode_eq_ok_iff.1 h
  rw [hi, encode_command_of_holds hm]

/-- Settles O3: every row picks the words its mnemonic holds, and these are the words that decode to it. -/
theorem decodeFollowsMatchAndMask : Obligations.DecodeFollowsMatchAndMask := by
  refine ⟨rfl, fun w r hr => ?_, ?_, fun w hw => ?_⟩
  · rw [masked_eq_matchBits_iff hr, exists_decode_eq_ok_iff]
  · refine rows_mnemonic_pairwise_ne.imp_of_mem fun ha hb hne w => ?_
    rw [masked_eq_matchBits_iff ha, masked_eq_matchBits_iff hb]
    exact fun ⟨hwa, hwb⟩ => hne (mnemonic_eq_of_holds hwa hwb)
  · cases h : decode w with
    | error e => exact ⟨e, rfl⟩
    | ok i =>
      obtain ⟨r, hr, hmnemonic⟩ := exists_row i.mnemonic
      exact absurd ((masked_eq_matchBits_iff hr w).2 (hmnemonic ▸ (decode_eq_ok_iff.1 h).1)) (hw r hr)

/-- Settles O4, by the decoder's two kinds of illegal words and the rejection at the port. -/
theorem illegalWordSetsIllAndNothingElse : Obligations.IllegalWordSetsIllAndNothingElse :=
  ⟨exists_decode_eq_error_iff, fun _ _ _ _ hin he => (step_of_inputs hin).trans (takeCommand_of_illegal he _)⟩

/-- Settles O6: the assembler's words are an opcode above an operand, and the mnemonic holds them. -/
theorem assembledTermsDecode : Obligations.AssembledTermsDecode := by
  refine ⟨fun m n h => ?_, fun m h => ?_, rfl, rfl, rfl, fun n h => ?_⟩
  · have hwf : m.takesOperand = true ∧ n < 2 ^ 24 := by simpa [AsmTerm.wellFormed] using h
    obtain ⟨hm, hn⟩ := hwf
    rw [assembleTerm_of_wellFormed h, termWord_withOperand m hn]
    refine ⟨congrArg some (append_ofNat_eq_ofNat _ hn), _, decode_append (.inl hm), mnemonic_command m _, ?_⟩
    rw [operandOf_command (.inl hm), BitVec.toNat_ofNat, Nat.mod_eq_of_lt hn]
  · rw [termWord_bare]
    exact ⟨_, decode_append (.inr rfl), mnemonic_command m 0⟩
  · refine ⟨BitVec.ofNat 24 (1000 * n), assembleTerm_of_wellFormed (decide_eq_true h), ?_⟩
    rw [BitVec.toNat_ofNat, Nat.mod_eq_of_lt (by omega)]

/-- Settles O5: each word is the word of the command beside it. -/
theorem sampleWordsDecode : Obligations.SampleWordsDecode :=
  ⟨decodeOfEncode .nop, decodeOfEncode (.setw 2), decodeOfEncode (.setp 30), decodeOfEncode (.setf 5001),
    decodeOfEncode (.setf 999000), decodeOfEncode .applyf, decodeOfEncode .synth, decodeOfEncode .start,
    decodeOfEncode .stop, decodeOfEncode .clrst⟩

/-- Settles O7: the pending word is served at the command port. -/
theorem stepRunsDecodedCommand : Obligations.StepRunsDecodedCommand := fun _ _ _ _ hin hi =>
  (step_of_inputs hin).trans (takeCommand_of_legal hi _)

/-- Settles O8: the placed word decodes to the command (O1), and taking it restores the moves to come. -/
theorem placedCommandRunsNext : Obligations.PlacedCommandRunsNext := fun s i =>
  stepRunsDecodedCommand _ _ _ _ (withFetchWord_inputs s (encode i)) (decodeOfEncode i)

end Sys2Proof.Machine
end

section
/-! PROOFS. No command stops in a state that meets the invariants, and no run that leaves the table unread (R113, R140,
R185); SYNTH repeated leaves the table of one (R110).

That a command completes needs I1 and I2 alone: a legal percent gives each part of a ramp a cell at every band count
(`rampParts_legal`), whatever `FREQ` holds. -/

namespace Sys2Proof.Machine

open Sys2Proof.Safety

/-! ## Every command completes -/

/-- R113: only a regeneration could stop, and with a legal waveform and percent none does. -/
theorem exec_completes (i : Instr) {s : State} (hw : s.wave.toNat ≤ 2) (hp : LegalPercent s.percent.toNat) :
    ∃ t, exec i s = .next t := by
  obtain ⟨w, codes, -, -, hregen⟩ := regenerate_legal (s := stopIfStreaming s) (by simpa using hw) (by simpa using hp)
  cases i with
  | nop => exact ⟨s, rfl⟩
  | setw w => simp only [exec, execSetw]; split <;> exact ⟨_, rfl⟩
  | setp p => simp only [exec, execSetp]; split <;> exact ⟨_, rfl⟩
  | setf f =>
    simp only [exec, execSetf]
    split
    · exact applyFrequency_legal hw hp
    · exact ⟨_, rfl⟩
  | applyf => exact applyFrequency_legal hw hp
  | synth => exact ⟨_, by rw [exec, execSynth, hregen, andThen_next]⟩
  | start => exact ⟨_, by rw [exec, execStart, hregen, andThen_next]⟩
  | stop => simp only [exec, execStop]; split <;> exact ⟨_, rfl⟩
  | clrst => exact ⟨_, rfl⟩

theorem takeCommand_completes (w : Word) {s : State} (hw : s.wave.toNat ≤ 2) (hp : LegalPercent s.percent.toNat) :
    ∃ t, takeCommand w s = .next t := by
  cases hd : decode w with
  | error e => exact ⟨_, takeCommand_of_illegal hd s⟩
  | ok i => rw [takeCommand_of_legal hd]; exact exec_completes i hw hp

/-! ## The moves to come -/

theorem applyFrequency_keeps_inputs {s t : State} (h : applyFrequency s = .next t) : t.inputs = s.inputs := by
  rcases applyFrequency_eq_next h with ⟨-, rfl⟩ | ⟨-, w, codes, -, -, rfl⟩
  · simp
  · simp

/-- No command takes or adds a move of the outside world (R151, log 1). -/
theorem exec_keeps_inputs {i : Instr} {s t : State} (h : exec i s = .next t) : t.inputs = s.inputs := by
  rcases exec_eq_next h with ⟨-, rfl⟩ | ⟨w, -, hsetw⟩ | ⟨p, -, hsetp⟩ | ⟨f, -, hsetf⟩ | ⟨-, happly⟩ |
    ⟨-, w, codes, -, -, rfl⟩ | ⟨-, w, codes, -, -, rfl⟩ | ⟨-, hstop⟩ | ⟨-, rfl⟩
  · rfl
  · rcases hsetw with ⟨-, rfl⟩ | ⟨-, rfl⟩ <;> rfl
  · rcases hsetp with ⟨-, rfl⟩ | ⟨-, rfl⟩ <;> rfl
  · rcases hsetf with ⟨-, happly⟩ | ⟨-, rfl⟩
    · simpa using applyFrequency_keeps_inputs happly
    · rfl
  · exact applyFrequency_keeps_inputs happly
  · simp
  · simp
  · rcases hstop with ⟨-, rfl⟩ | ⟨-, rfl⟩ <;> rfl
  · rfl

theorem takeCommand_keeps_inputs {w : Word} {s t : State} (h : takeCommand w s = .next t) : t.inputs = s.inputs := by
  rcases takeCommand_eq_next.1 h with ⟨e, -, rfl⟩ | ⟨i, -, hexec⟩
  · rfl
  · exact exec_keeps_inputs hexec

/-! ## Runs -/

/-- A move other than a table read is served to the end, and is the one move taken (R140, R35, R200). -/
theorem serve_completes {x : PortInput} {s : State} (hinv : Inv s) (hx : NoTableRead x) :
    ∃ t, serve x s = .next t ∧ t.inputs = s.inputs := by
  cases x with
  | command w =>
    obtain ⟨t, ht⟩ := takeCommand_completes w hinv.params.wave hinv.params.percent
    exact ⟨t, ht, takeCommand_keeps_inputs ht⟩
  | readRegister a => exact ⟨_, rfl, rfl⟩
  | hostReadCell i => exact hx.elim
  | sinkReadCell i => exact hx.elim
  | reset => exact ⟨_, rfl, rfl⟩

/-- One step of such a run: it completes, keeps the invariants and uses up one move. -/
theorem step_completes {s : State} (hinv : Inv s) (hmoves : ∀ x ∈ s.inputs, NoTableRead x) :
    ∃ t, step s = .next t ∧ Inv t ∧ t.inputs = s.inputs.tail := by
  cases hin : s.inputs with
  | nil => exact ⟨s, step_eq_next.2 (.inl ⟨hin, rfl⟩), hinv, hin⟩
  | cons x rest =>
    have hinv' := inv_setInputs hinv rest
    obtain ⟨t, ht, hrest⟩ := serve_completes hinv' (hmoves x (by simp [hin]))
    exact ⟨t, (step_of_inputs hin).trans ht, serve_keeps_inv hinv' ht, hrest⟩

/-- A run whose first step completes goes on from there. -/
theorem run_succ_of_step {M : Host.Core} {s t : M.State} (h : M.step s = .next t) (k : Nat) :
    M.run (k + 1) s = M.run k t := by
  rw [Host.Core.run, h]

/-! ## SYNTH -/

/-- All that SYNTH can do (R145): the table of the present registers, written inside the bracket. -/
theorem synth_eq_next {s t : State} (h : exec .synth s = .next t) :
    ∃ w codes, waveformOfCode s.wave = some w ∧ synthesize w s.percent.toNat (countOf s) = .ok codes ∧
      t = startIfStreaming (timerReloadReg s) (writeTable codes (stopIfStreaming s)) := by
  simpa using exec_eq_next h

/-- Outside a stream SYNTH has no bracket: it writes the table and nothing else. -/
theorem synth_idle {s : State} (hs : s.streaming = false) (codes : List Code) (r : Reload) :
    startIfStreaming r (writeTable codes (stopIfStreaming s)) = writeTable codes s := by
  have hstop : stopIfStreaming s = s := by simp [stopIfStreaming, hs]
  simp [startIfStreaming, hstop, hs]

/-- A table written twice with the same codes is the table written once, as the same data. -/
theorem writeTable_writeTable (codes : List Code) (s : State) :
    writeTable codes (writeTable codes s) = writeTable codes s := by
  ext1 <;> simp

/-! ## The obligations -/

/-- Settles O49: I1 and I2 let the command complete, and every command keeps the invariants. -/
theorem everyWordCompletes : Obligations.EveryWordCompletes := by
  intro w s hinv
  obtain ⟨t, ht⟩ := takeCommand_completes w hinv.params.wave hinv.params.percent
  exact ⟨t, ht, takeCommand_keeps_inv hinv ht⟩

/-- Settles O50, by induction on the length of the run, from every state at once. -/
theorem runsWithoutTableReadsNeverStop : Obligations.RunsWithoutTableReadsNeverStop := by
  intro s hinv hmoves k
  induction k generalizing s with
  | zero => exact ⟨s, rfl, hinv, rfl⟩
  | succ k ih =>
    obtain ⟨t, hstep, hinv', htail⟩ := step_completes hinv hmoves
    have hmoves' : ∀ x ∈ t.inputs, NoTableRead x := fun x hx => hmoves x (List.mem_of_mem_tail (htail ▸ hx))
    obtain ⟨u, hrun, hinv'', hdrop⟩ := ih t hinv' hmoves'
    exact ⟨u, (run_succ_of_step (M := Sys2Proof.core) hstep k).trans hrun, hinv'', by rw [hdrop, htail, List.drop_tail]⟩

/-- Settles O37: the first SYNTH keeps the registers that the codes depend on, so the second writes the same codes. -/
theorem synthTwiceLeavesTheSameTable : Obligations.SynthTwiceLeavesTheSameTable := by
  intro s t u ht hu
  obtain ⟨w, codes, hw, hcodes, rfl⟩ := synth_eq_next ht
  obtain ⟨w', codes', hw', hcodes', rfl⟩ := synth_eq_next hu
  obtain rfl : w = w' := by simpa [hw] using hw'
  obtain rfl : codes = codes' := by simpa [hcodes] using hcodes'
  refine ⟨by simp, by simp, fun hs => ?_⟩
  rw [synth_idle hs, synth_idle (by simpa using hs), writeTable_writeTable]

end Sys2Proof.Machine
end

section
/-! PROOFS. The shapes of the tables of 40_synthesis.md: the symmetries of the sine, the sine of a divisor of 4000 in the
sine of 4000, the square's high cells, and the two parts of the ramp.

The sine's cells are rounded values of the real sine, so its symmetries are those of the real sine wherever the rounding
is: `NearCode` says that it is away from a tie, and the only ties are the two cells 2048. A part of a ramp is
`quant (4095 * a) b` for `a` from 0 to `b`, rising with `a` in the first part and falling with the cell in the second. -/

namespace Sys2Proof.Machine

open Sys2Proof.Safety Real

/-! ## The sine -/

theorem roundSine_one : roundSine 1 = 4095 := by norm_num [roundSine]

theorem roundSine_neg_one : roundSine (-1) = 0 := by norm_num [roundSine]

/-- A value that is no tie lies nearer to its code than half-way to a neighbour. -/
theorem nearCode_roundSine {x : ℝ} (h : ¬∃ k : ℤ, (x + 1) * (4095 / 2 : ℝ) = k + 1 / 2) : NearCode x (roundSine x) := by
  have hle : (roundSine x : ℝ) ≤ (x + 1) * (4095 / 2) + 1 / 2 := Int.floor_le _
  have hlt : (x + 1) * (4095 / 2) + 1 / 2 < (roundSine x : ℝ) + 1 := Int.lt_floor_add_one _
  have hne : (roundSine x : ℝ) ≠ (x + 1) * (4095 / 2) + 1 / 2 := by
    intro e
    refine h ⟨roundSine x - 1, ?_⟩
    push_cast
    linarith
  have hlt' := lt_of_le_of_ne hle hne
  rw [NearCode, abs_lt]
  constructor <;> linarith

/-- A cell whose angle has a known sine. -/
theorem sineCell_toNat_of_sin {n i : ℕ} {x : ℝ} {v : ℕ} (hi : i < n) (hx : sin (2 * π * i / n) = x)
    (hv : roundSine x = v) : (sineCell n i).toNat = v := by
  have h := sineCell_eq_roundSine hi
  rw [hx, hv] at h
  exact_mod_cast h

/-- R94 (b): the first half mirrors about its quarter. -/
theorem sineCell_half_sub {m i : ℕ} (hm : 1 ≤ m) (hi : i ≤ m) : sineCell (2 * m) (m - i) = sineCell (2 * m) i := by
  have hm0 : (m : ℝ) ≠ 0 := by positivity
  have hangle : 2 * π * (m - i : ℕ) / (2 * m : ℕ) = π - 2 * π * i / (2 * m : ℕ) := by
    push_cast [Nat.cast_sub hi]
    field_simp
  exact BitVec.eq_of_toNat_eq (sineCell_toNat_of_sin (by omega) (by rw [hangle, sin_pi_sub])
    (sineCell_eq_roundSine (by omega)).symm)

/-- R94 (c): away from the ties, a cell of the second half and the one half a turn before it add up to 4095. -/
theorem sineCell_half_add {m i : ℕ} (h1 : 1 ≤ i) (hi : i < m) :
    (sineCell (2 * m) (m + i)).toNat + (sineCell (2 * m) i).toNat = 4095 := by
  have hm0 : (m : ℝ) ≠ 0 := by exact_mod_cast (by omega : m ≠ 0)
  have hangle : 2 * π * (m + i : ℕ) / (2 * m : ℕ) = 2 * π * i / (2 * m : ℕ) + π := by
    push_cast
    field_simp
    ring
  have htie := (sineTiesAreTheZeroCrossings (2 * m) i (by omega)).1
  have hmod : 2 * i % (2 * m) ≠ 0 := by rw [Nat.mod_eq_of_lt (by omega)]; omega
  have hneg := (nearCode_roundSine (mt htie.1 hmod)).neg.roundSine_eq
  have hlow := sineCell_eq_roundSine (n := 2 * m) (i := m + i) (by omega)
  have hhigh := sineCell_eq_roundSine (n := 2 * m) (i := i) (by omega)
  rw [hangle, sin_add_pi, hneg] at hlow
  omega

/-- R94 (a): the two cells at which the sine is 0. -/
theorem sineCell_zero {n : ℕ} (hn : 1 ≤ n) : (sineCell n 0).toNat = 2048 :=
  (sineTiesAreTheZeroCrossings n 0 hn).2 (Nat.zero_mod n)

theorem sineCell_half {m : ℕ} (hm : 1 ≤ m) : (sineCell (2 * m) m).toNat = 2048 :=
  (sineTiesAreTheZeroCrossings (2 * m) m (by omega)).2 (Nat.mod_self _)

/-- R94 (d): the highest and the lowest cell. -/
theorem sineCell_quarter {q : ℕ} (hq : 1 ≤ q) : (sineCell (4 * q) q).toNat = 4095 := by
  have hangle : 2 * π * q / (4 * q : ℕ) = π / 2 := by
    push_cast
    field_simp
    norm_num
  exact sineCell_toNat_of_sin (by omega) (by rw [hangle, sin_pi_div_two]) roundSine_one

theorem sineCell_three_quarters {q : ℕ} (hq : 1 ≤ q) : (sineCell (4 * q) (3 * q)).toNat = 0 := by
  have hangle : 2 * π * (3 * q : ℕ) / (4 * q : ℕ) = π / 2 + π := by
    push_cast
    field_simp
    norm_num
  exact sineCell_toNat_of_sin (by omega) (by rw [hangle, sin_add_pi, sin_pi_div_two]) roundSine_neg_one

/-- R94 (e): half a turn apart the cells add up to 4095, but the two of 2048 to 4096. -/
theorem sum_sineCell {m : ℕ} (hm : 1 ≤ m) : ∑ i ∈ Finset.range (2 * m), (sineCell (2 * m) i).toNat = 4095 * m + 1 := by
  obtain ⟨k, rfl⟩ : ∃ k, m = k + 1 := ⟨m - 1, by omega⟩
  have hpairs : ∀ i ∈ Finset.range k,
      (sineCell (2 * (k + 1)) (i + 1)).toNat + (sineCell (2 * (k + 1)) (k + 1 + (i + 1))).toNat = 4095 := by
    intro i hi
    rw [add_comm]
    exact sineCell_half_add (by omega) (by have := Finset.mem_range.1 hi; omega)
  calc ∑ i ∈ Finset.range (2 * (k + 1)), (sineCell (2 * (k + 1)) i).toNat
      = ∑ i ∈ Finset.range (k + 1),
          ((sineCell (2 * (k + 1)) i).toNat + (sineCell (2 * (k + 1)) (k + 1 + i)).toNat) := by
        rw [Finset.sum_add_distrib, ← Finset.sum_range_add, ← two_mul]
    _ = ∑ i ∈ Finset.range k, 4095 + (2048 + 2048) := by
        rw [Finset.sum_range_succ', Finset.sum_congr rfl hpairs, add_zero, sineCell_zero (by omega),
          sineCell_half (by omega)]
    _ = 4095 * (k + 1) + 1 := by
        rw [Finset.sum_const, Finset.card_range, smul_eq_mul]
        ring

/-- R95: both cells are the same number of R96. -/
theorem sineCell_decimates {n : ℕ} (hn : 4000 % n = 0) (i : ℕ) : sineCell n i = sineCell 4000 (i * (4000 / n)) := by
  simp [sineCell, sineCode, hn]

/-! ## The square -/

/-- R100's comparison: a cell is high exactly below the ceiling of `P * N / 100`. -/
theorem squareCell_eq {p n i : ℕ} (hi : i < n) :
    squareCell p n i = if i < min n ((p * n + 99) / 100) then 4095 else 0 := by
  have hiff : 100 * i < p * n ↔ i < min n ((p * n + 99) / 100) := by omega
  simp only [squareCell, hiff]
  split_ifs <;> rfl

/-- R101: an admitted percent of a band count is a whole number of cells, and neither none nor all of them. -/
theorem legal_mul_bandCount {p n : ℕ} (hp : LegalPercent p) (hn : n ∈ BandCounts) :
    ∃ h, p * n = 100 * h ∧ 1 ≤ h ∧ h ≤ n - 1 := by
  obtain ⟨hlo, hhi, hten⟩ := hp
  have hcounts : ∀ n ∈ BandCounts, 1 ≤ n ∧ n % 10 = 0 := by decide
  obtain ⟨hpos, hmod⟩ := hcounts n hn
  obtain ⟨d, rfl⟩ := Nat.dvd_of_mod_eq_zero hten
  obtain ⟨m, rfl⟩ := Nat.dvd_of_mod_eq_zero hmod
  have hge : 1 * m ≤ d * m := Nat.mul_le_mul_right m (by omega)
  have hle : d * m ≤ 9 * m := Nat.mul_le_mul_right m (by omega)
  exact ⟨d * m, by ring, by omega, by omega⟩

/-! ## The ramp -/

/-- The rising part (R105). -/
theorem rampCodeWith_rising (quant : ℕ → ℕ → ℕ) {r i : ℕ} (f : ℕ) (hi : i < r) :
    rampCodeWith quant r f i = quant (4095 * i) r := if_pos hi

/-- The falling part (R106). -/
theorem rampCodeWith_falling (quant : ℕ → ℕ → ℕ) (r f j : ℕ) :
    rampCodeWith quant r f (r + j) = quant (4095 * (f - j)) f := by
  rw [rampCodeWith, if_neg (by omega), Nat.add_sub_cancel_left]

theorem quant_le_quant {quant : ℕ → ℕ → ℕ} (h : QuantiserLaw quant) {a a' b : ℕ} (hb : 1 ≤ b) (ha : a ≤ a') :
    quant (4095 * a) b ≤ quant (4095 * a') b :=
  h.mono _ _ _ _ hb hb (Nat.mul_le_mul_right b (Nat.mul_le_mul_left 4095 ha))

theorem quant_le_codeMax {quant : ℕ → ℕ → ℕ} (h : QuantiserLaw quant) {a b : ℕ} (hb : 1 ≤ b) (ha : a ≤ b) :
    quant (4095 * a) b ≤ 4095 :=
  (quant_le_quant h hb ha).trans_eq (h.top b hb)

/-- Every cell is in one of the two parts. -/
theorem rising_or_falling (r i : ℕ) : i < r ∨ ∃ j, i = r + j :=
  (Nat.lt_or_ge i r).imp_right Nat.exists_eq_add_of_le

/-- R108 (c). -/
theorem rampCodeWith_le {quant : ℕ → ℕ → ℕ} (h : QuantiserLaw quant) {r f i : ℕ} (hr : 1 ≤ r) (hf : 1 ≤ f) :
    rampCodeWith quant r f i ≤ 4095 := by
  rcases rising_or_falling r i with hi | ⟨j, rfl⟩
  · rw [rampCodeWith_rising quant f hi]
    exact quant_le_codeMax h hr hi.le
  · rw [rampCodeWith_falling]
    exact quant_le_codeMax h hf (Nat.sub_le f j)

/-- R107's floor, of the rational number. -/
theorem rampQuant_eq_floor (a b : ℕ) : rampQuant a b = ⌊(a / b : ℚ)⌋₊ := (Nat.floor_div_eq_div a b).symm

/-- R107: the floor depends on the rational number alone and grows with it. -/
theorem quantiserLaw_rampQuant : QuantiserLaw rampQuant where
  mono := fun a b c d hb hd h => by
    rw [rampQuant_eq_floor, rampQuant_eq_floor]
    refine Nat.floor_mono ((div_le_div_iff₀ (by exact_mod_cast hb) (by exact_mod_cast hd)).2 ?_)
    exact_mod_cast h
  zero := fun b _ => Nat.zero_div b
  top := fun _ hb => Nat.mul_div_cancel _ hb

/-- The floor of a part reaches 4095 at its full end alone (R108 (a)). -/
theorem rampQuant_eq_codeMax_iff {a b : ℕ} (hb : 1 ≤ b) (ha : a ≤ b) : rampQuant (4095 * a) b = 4095 ↔ a = b := by
  constructor
  · intro h
    have hle : 4095 * b ≤ 4095 * a := by rw [← Nat.le_div_iff_mul_le hb]; exact h.ge
    omega
  · rintro rfl
    exact quantiserLaw_rampQuant.top a hb

/-- In a part of at most 4095 cells the floor is 0 at its empty end alone (R108 (d)). -/
theorem rampQuant_eq_zero_iff {a b : ℕ} (hb : 1 ≤ b) (hcap : b ≤ 4095) : rampQuant (4095 * a) b = 0 ↔ a = 0 := by
  rw [rampQuant, Nat.div_eq_zero_iff_lt hb]
  omega

/-- A code of the floor fits its 12 bits. -/
theorem rampCell_toNat {p n : ℕ} (hr : 1 ≤ rampRise p n) (hf : 1 ≤ rampFall p n) (i : ℕ) :
    (rampCell p n i).toNat = rampCodeWith rampQuant (rampRise p n) (rampFall p n) i := by
  have hle := rampCodeWith_le quantiserLaw_rampQuant (i := i) hr hf
  rw [rampCell, BitVec.toNat_ofNat, Nat.mod_eq_of_lt (by omega)]

/-- R104 to R106, cell by cell. -/
theorem synthesize_ramp_getElem? {p n i : ℕ} {codes : List Code} (h : synthesize .ramp p n = .ok codes)
    (hr : 1 ≤ rampRise p n) (hf : 1 ≤ rampFall p n) (hi : i < n) :
    codes[i]?.map BitVec.toNat = some (rampCodeWith rampQuant (rampRise p n) (rampFall p n) i) := by
  rw [getElem?_of_synthesize h hi, Option.map_some, cellCode, rampCell_toNat hr hf]

/-! ## Where there is no table -/

theorem synthesize_eq_error {w : Waveform} {p n : ℕ} :
    synthesize w p n = .error .degenerateRamp ↔ synthesizable w p n = false := by
  cases h : synthesizable w p n <;> simp [synthesize, h]

/-- R109's precondition fails exactly where a part is empty. -/
theorem synthesizable_ramp_eq_false {p n : ℕ} :
    synthesizable .ramp p n = false ↔ rampRise p n = 0 ∨ rampFall p n = 0 := by
  rw [synthesizable, Bool.and_eq_false_iff, decide_eq_false_iff_not, decide_eq_false_iff_not]
  omega

/-! ## The obligations -/

/-- Settles O30: the real sine's symmetries, and Niven's theorem for the ties. -/
theorem sineTableSymmetries : Obligations.SineTableSymmetries := by
  intro n hn heven
  obtain ⟨m, rfl⟩ := Nat.dvd_of_mod_eq_zero heven
  have hm : 1 ≤ m := by omega
  have hhalf : 2 * m / 2 = m := Nat.mul_div_cancel_left m two_pos
  rw [hhalf]
  refine ⟨sineCell_zero hn, sineCell_half hm, fun i hi => sineCell_half_sub hm hi,
    fun i h1 hi => sineCell_half_add h1 (by omega), fun hfour => ?_, ?_⟩
  · obtain ⟨q, hq⟩ := Nat.dvd_of_mod_eq_zero hfour
    rw [hq, show 4 * q / 4 = q by omega, show 3 * (4 * q) / 4 = 3 * q by omega]
    exact ⟨sineCell_quarter (by omega), sineCell_three_quarters (by omega)⟩
  · change 2 * ∑ i ∈ Finset.range (2 * m), (sineCell (2 * m) i).toNat = _
    rw [sum_sineCell hm]
    ring

/-- Settles O31: the quarter table is indexed by the cell of the sine of 4000. -/
theorem sineTablesAreDecimations : Obligations.SineTablesAreDecimations := by
  refine ⟨fun p n hn => ?_, by decide, by decide⟩
  have hok (n : ℕ) : synthesize .sine p n = .ok ((List.range n).map (cellCode .sine p n)) := synthesize_eq_ok.2 ⟨rfl, rfl⟩
  refine ⟨_, _, hok n, hok 4000, length_of_synthesize (hok n), fun i hi => ?_⟩
  have hcell : i * (4000 / n) < 4000 := by
    have hdvd := Nat.dvd_of_mod_eq_zero hn
    calc i * (4000 / n) < n * (4000 / n) :=
          Nat.mul_lt_mul_of_pos_right hi (Nat.div_pos (Nat.le_of_dvd (by norm_num) hdvd) (by omega))
      _ = 4000 := Nat.mul_div_cancel' hdvd
  rw [getElem?_of_synthesize (hok n) hi, getElem?_of_synthesize (hok 4000) hcell, cellCode, cellCode,
    sineCell_decimates hn]

/-- Settles O32: the comparison of R100 holds for the first cells, a number of them that is exact for the admitted pairs. -/
theorem squareTableIsAHighPrefix : Obligations.SquareTableIsAHighPrefix := by
  refine ⟨fun p n _ => synthesize_eq_ok.2 ⟨rfl, ?_⟩, fun p n hp hn => ?_⟩
  · refine List.ext_getElem (by simp) fun i h1 h2 => ?_
    have hi : i < n := by simpa using h2
    simp [List.getElem_append, cellCode, squareCell_eq hi]
  · obtain ⟨h, hmul, h1, h2⟩ := legal_mul_bandCount hp hn
    omega

/-- Settles O34: each part runs over one denominator, from the numerator of 0 to that of 4095 or back. -/
theorem rampShapeForEveryQuantiser : Obligations.RampShapeForEveryQuantiser := by
  intro quant r f h hr hf
  refine ⟨?_, ?_, fun i hi => ?_, fun i hi _ => ?_, fun i _ => rampCodeWith_le h hr hf⟩
  · rw [rampCodeWith_rising quant f hr]
    exact h.zero r hr
  · exact (rampCodeWith_falling quant r f 0).trans (h.top f hf)
  · rw [rampCodeWith_rising quant f hi, rampCodeWith_rising quant f (by omega)]
    exact quant_le_quant h hr (Nat.le_succ i)
  · obtain ⟨j, rfl⟩ := Nat.exists_eq_add_of_le hi
    rw [add_assoc, rampCodeWith_falling, rampCodeWith_falling]
    exact quant_le_quant h hf (by omega)

/-- Settles O35: the floor of a part takes its end values at its ends alone. -/
theorem rampPeakAndZeroAreUnique : Obligations.RampPeakAndZeroAreUnique := by
  refine ⟨quantiserLaw_rampQuant, fun r f hr hf => ⟨fun i hi => ?_, fun hrcap hfcap i hi => ?_, ?_⟩⟩
  · rcases rising_or_falling r i with hlt | ⟨j, rfl⟩
    · rw [rampCodeWith_rising _ f hlt, rampQuant_eq_codeMax_iff hr hlt.le]
    · rw [rampCodeWith_falling, rampQuant_eq_codeMax_iff hf (Nat.sub_le f j)]
      omega
  · rcases rising_or_falling r i with hlt | ⟨j, rfl⟩
    · rw [rampCodeWith_rising _ f hlt, rampQuant_eq_zero_iff hr hrcap]
    · rw [rampCodeWith_falling, rampQuant_eq_zero_iff hf hfcap]
      omega
  · rintro rfl j hj1 hj2
    rw [rampCodeWith_falling, rampCodeWith_rising _ r (by omega)]

/-- Settles O33: R109's precondition holds, and the two parts are those of `rampCodeWith`. -/
theorem rampCellsInterpolate : Obligations.RampCellsInterpolate := by
  intro p n r f hrdef hfdef hr hf
  obtain rfl : r = rampRise p n := hrdef
  obtain rfl : f = rampFall p n := hfdef
  have hok : synthesize .ramp p n = .ok ((List.range n).map (cellCode .ramp p n)) :=
    synthesize_eq_ok.2 ⟨by simp [synthesizable, hr, hf], rfl⟩
  refine ⟨_, hok, length_of_synthesize hok, fun i hi => ?_, fun j hj => ?_⟩
  · rw [synthesize_ramp_getElem? hok hr hf (by unfold rampFall at hf; omega), rampCodeWith_rising _ _ hi, rampQuant]
  · rw [synthesize_ramp_getElem? hok hr hf (by unfold rampFall at hj; omega), rampCodeWith_falling, rampQuant]

/-- Settles O36: only the ramp has a precondition. -/
theorem degenerateRampHasNoTable : Obligations.DegenerateRampHasNoTable := by
  intro w p n
  rw [synthesize_eq_error]
  cases w with
  | sine => simp [synthesizable]
  | square => simp [synthesizable]
  | ramp => exact synthesizable_ramp_eq_false.trans (and_iff_right rfl).symm

end Sys2Proof.Machine
end

section
/-! PROOFS. The rate controller of 41_rate.md: the bands of R120 and R122, and what the commands that bring the table and
the sink into agreement with `FREQ` leave behind (R127, R128, R144).

A band is pinned by its two edges, since `bandCount` never rises. After a refresh (`Refreshed`) the quantities of R128 agree
in any state, and APPLYF's whole effect is read off the two cases of `ApplyFrequency`. -/

namespace Sys2Proof.Machine

open Sys2Proof.Safety

/-! ## The bands -/

/-- A band of constant count below its edge, followed by a falling function that starts no higher, falls. -/
theorem antitone_ite_le {edge n : Nat} {above : Nat → Nat} (h : Antitone above) (hn : above 0 ≤ n) :
    Antitone fun f => if f ≤ edge then n else above f := by
  intro f g hfg
  dsimp only
  split_ifs with hg hf hf
  · exact le_rfl
  · exact absurd (hfg.trans hg) hf
  · exact (h g.zero_le).trans hn
  · exact h hfg

/-- R122 (a): no band counts fewer cells than the bands above it. -/
theorem bandCount_antitone : Antitone bandCount := by
  unfold bandCount
  iterate 7 refine antitone_ite_le ?_ (by decide)
  exact antitone_const

/-- Between two frequencies of one band count lies that count alone. -/
theorem bandCount_eq_of_edges {lo hi n f : Nat} (hlo : bandCount lo = n) (hhi : bandCount hi = n)
    (h : lo ≤ f ∧ f ≤ hi) : bandCount f = n :=
  le_antisymm (hlo ▸ bandCount_antitone h.1) (hhi ▸ bandCount_antitone h.2)

/-- Each band count is that of the upper edge of its band, a legal frequency (R120). -/
theorem exists_legalFreq_of_mem {n : Nat} (h : n ∈ BandCounts) : ∃ f, LegalFreq f ∧ bandCount f = n := by
  have hedges : ∀ n ∈ BandCounts, ∃ f ∈ [250, 500, 5000, 10000, 20000, 100000, 200000, 999000],
      (1 ≤ f ∧ f ≤ 999000) ∧ bandCount f = n := by decide
  obtain ⟨f, -, hlegal, hcount⟩ := hedges n h
  exact ⟨f, hlegal, hcount⟩

/-! ## After a refresh -/

/-- A refresh that leaves the stream on or off as it was has the events of R148. -/
theorem Refreshed.trace_of_streaming_eq {s t : State} (h : Refreshed s t) (hs : t.streaming = s.streaming) :
    t.trace = s.trace ++ refreshEvents s.streaming t.freq.toNat := by
  have hlen : t.tableLen = BitVec.ofNat 12 (bandCount t.freq.toNat) :=
    BitVec.eq_of_toNat_eq (h.len.trans (toNat_ofNat_countOf t).symm)
  rw [h.trace, hs, hlen]
  cases s.streaming <;> simp [refreshEvents, timerReloadReg]

/-- After a refresh a streaming sink runs with the table's length and the reload of the stored frequency. -/
theorem Refreshed.sinkAfter_eq {s t : State} (h : Refreshed s t) (hs : t.streaming = true) :
    sinkAfter t.trace = some (t.tableLen, timerReloadReg t) := by
  rw [h.trace, if_pos hs, sinkAfter_start]

/-- All that START can do (R146): the table of the present registers, written after the `Stop`, then the stream. -/
theorem start_eq_next {s t : State} (h : exec .start s = .next t) :
    ∃ w codes, waveformOfCode s.wave = some w ∧ synthesize w s.percent.toNat (countOf s) = .ok codes ∧
      t = emit (.start (BitVec.ofNat 12 codes.length) (timerReloadReg s))
        (setStreaming true (writeTable codes (stopIfStreaming s))) := by
  simpa using exec_eq_next h

/-- The commands of R128 are refreshes. -/
theorem refreshed_of_rate_command {i : Instr} {s t : State}
    (hi : i = .applyf ∨ i = .start ∨ ∃ f, i = .setf f ∧ LegalFreq f.toNat) (h : exec i s = .next t) : Refreshed s t := by
  rcases hi with rfl | rfl | ⟨f, rfl, hf⟩
  · exact refreshed_applyFrequency h
  · obtain ⟨w, codes, -, hcodes, rfl⟩ := start_eq_next h
    exact refreshed_start (length_of_synthesize hcodes)
  · rw [exec, execSetf, if_pos ((freqOperandOk_iff _).2 hf)] at h
    exact (refreshed_applyFrequency h).of_setFreq

/-! ## ApplyFrequency -/

/-- A table stored whole is a table rewritten (R112). -/
theorem tableRewritten_of_storeAll {s t : State} {w : Waveform} {p : Nat} {codes : List Code}
    (hcodes : synthesize w p (countOf s) = .ok codes) (hlen : t.tableLen = BitVec.ofNat 12 codes.length)
    (htable : t.table = Memory.storeAll s.table codes) : TableRewritten w p (countOf s) s t := by
  have hcount := length_of_synthesize hcodes
  refine ⟨?_, ⟨codes, hcodes, hcount, fun i hi => ?_⟩, fun i hi => ?_⟩
  · rw [hlen, hcount, toNat_ofNat_countOf]
  · rw [htable, Memory.read_storeAll, if_pos (by omega)]
  · rw [htable, Memory.read_storeAll, if_neg (by omega)]

/-- The frame of `ApplyFrequency`: the registers outside the table, and whether the block streams. -/
theorem sameOutsideTable_of_applyFrequency {s t : State} (h : applyFrequency s = .next t) :
    SameOutsideTable s t ∧ t.streaming = s.streaming := by
  rcases applyFrequency_eq_next h with ⟨-, rfl⟩ | ⟨-, w, codes, -, -, rfl⟩
  · exact ⟨by constructor <;> simp, by simp⟩
  · exact ⟨by constructor <;> simp, by simp⟩

theorem tableRewritten_of_applyFrequency {s t : State} {w : Waveform} (hw : waveformOfCode s.wave = some w)
    (h : applyFrequency s = .next t) (hne : countOf s ≠ s.tableLen.toNat) :
    TableRewritten w s.percent.toNat (countOf s) s t := by
  rcases applyFrequency_eq_next h with ⟨heq, -⟩ | ⟨-, w', codes, hw', hcodes, rfl⟩
  · exact absurd heq hne
  · obtain rfl : w = w' := by simpa [hw] using hw'
    exact tableRewritten_of_storeAll hcodes (by simp) (by simp)

theorem tableKept_of_applyFrequency {s t : State} (h : applyFrequency s = .next t)
    (heq : countOf s = s.tableLen.toNat) : TableKept s t := by
  rcases applyFrequency_eq_next h with ⟨-, rfl⟩ | ⟨hne, -⟩
  · exact ⟨by simp, fun i => by simp⟩
  · exact absurd heq hne

/-- The code of a waveform is 0, 1 or 2 (R21). -/
theorem wave_le_of_waveformOfCode {v : BitVec 2} {w : Waveform} (h : waveformOfCode v = some w) : v.toNat ≤ 2 := by
  rw [waveformOfCode_some h]
  cases w <;> decide

/-! ## The obligations -/

/-- Settles O13: the table by the two cases of `ApplyFrequency`, the trace because it is a refresh. -/
theorem applyfAppliesStoredFrequency : Obligations.ApplyfAppliesStoredFrequency := by
  intro s w hw hp
  obtain ⟨t, ht⟩ := applyFrequency_legal (wave_le_of_waveformOfCode hw) hp
  obtain ⟨hsame, hstreaming⟩ := sameOutsideTable_of_applyFrequency ht
  have htrace := (refreshed_applyFrequency ht).trace_of_streaming_eq hstreaming
  rw [hsame.freq] at htrace
  exact ⟨t, ht, hsame, hstreaming, tableRewritten_of_applyFrequency hw ht, tableKept_of_applyFrequency ht, htrace⟩

/-- Settles O26: the counts are those of the bands' upper edges. -/
theorem bandCountFallsThroughTheEightCounts : Obligations.BandCountFallsThroughTheEightCounts := by
  refine ⟨fun f g hfg => bandCount_antitone hfg, fun n => ⟨exists_legalFreq_of_mem, ?_⟩, by decide, by decide⟩
  rintro ⟨f, -, rfl⟩
  exact bandCount_mem f

/-- Settles O28: each of the three is a refresh, which makes the length the band's and starts the sink with it. -/
theorem rateQuantitiesAgree : Obligations.RateQuantitiesAgree := by
  intro i s t hi ht
  have hrefresh := refreshed_of_rate_command hi ht
  have hlen : t.tableLen.toNat = bandCount t.freq.toNat := hrefresh.len
  obtain ⟨-, -, -, hcount, hreload, hrate, htableLen, -⟩ := registerReadPortMap.1 t
  refine ⟨BitVec.eq_of_toNat_eq ?_, hcount, hreload, ?_, hrefresh.sinkAfter_eq⟩
  · rw [htableLen, hcount, hlen]
  · rw [hrate, hlen]

/-- Settles O25: in each band the count is that of the band's two edges. -/
theorem bandCountsOfTheEightBands : Obligations.BandCountsOfTheEightBands := by
  intro f
  refine ⟨?_, ?_, ?_, ?_, ?_, ?_, ?_, ?_⟩ <;> exact bandCount_eq_of_edges rfl rfl

end Sys2Proof.Machine
end

section
/-! PROOFS. The commands of 42_commands.md: what each does to the registers, the table and the trace, how START, SYNTH and
STOP relate, and the write set of each.

SETW, SETP and SETF are rejected for their operand (`OperandRejected`) or have one equation each. SYNTH and START are a
regeneration followed by an event, and are compared as such, faults and refusals included: a regeneration repeated is done
once, and it neither reads nor writes `STREAMING`. The write sets are read off `exec_eq_next`. -/

namespace Sys2Proof.Machine

open Sys2Proof.Safety

/-! ## The register writes -/

/-- R170: a rejected command sets `STATUS.REJ` alone. -/
theorem exec_of_operandRejected {i : Instr} (h : OperandRejected i) (s : State) : exec i s = .next (reject .rej s) := by
  cases i with
  | setw w => exact if_neg fun hok => (Nat.not_le.2 h) ((waveOperandOk_iff _).1 hok)
  | setp p =>
    obtain ⟨hlo, hhi, hmod⟩ := h
    refine if_neg fun hok => hmod ?_
    rw [percentStepOk_iff, saturatePercent_eq, operandValue_eq] at hok
    omega
  | setf f =>
    refine if_neg fun hok => ?_
    obtain ⟨hlo, hhi⟩ : LegalFreq f.toNat := (freqOperandOk_iff _).1 hok
    rcases h with hzero | hbig <;> omega
  | nop | applyf | synth | start | stop | clrst => exact h.elim

theorem exec_setw_of_le {w : Arg} (h : w.toNat ≤ 2) (s : State) :
    exec (.setw w) s = .next (setWave (BitVec.ofNat 2 w.toNat) s) :=
  if_pos ((waveOperandOk_iff _).2 h)

/-- R142: the step check is made on the saturated value, and that value is written. -/
theorem exec_setp_of_saturatePercent_eq {p : Arg} {q : Nat} (hq : saturatePercent p.toNat = q) (hstep : q % 10 = 0)
    (s : State) : exec (.setp p) s = .next (setPercent (BitVec.ofNat 7 q) s) := by
  subst hq
  exact if_pos ((percentStepOk_iff _).2 hstep)

theorem exec_setf_of_legal {f : Arg} (h : LegalFreq f.toNat) (s : State) :
    exec (.setf f) s = applyFrequency (setFreq (BitVec.ofNat 20 f.toNat) s) :=
  if_pos ((freqOperandOk_iff _).2 h)

/-- The word of a command with operand: the opcode's number in the high byte (R72), OR the operand. -/
theorem append_eq_or_setWidth {op : Opcode} {high : Word} (h : op.setWidth 32 <<< 24 = high) (arg : Arg) :
    (op ++ arg : Word) = high ||| arg.setWidth 32 := by
  rw [append_eq_shiftLeft_or, h]

/-- The 20 bits of `FREQ` hold every legal frequency (R23). -/
theorem toNat_ofNat_of_legalFreq {f : Nat} (h : LegalFreq f) : (BitVec.ofNat 20 f).toNat = f := by
  obtain ⟨-, hhi⟩ := h
  rw [BitVec.toNat_ofNat, Nat.mod_eq_of_lt (by omega)]

theorem countOf_setFreq_of_legalFreq {f : Nat} (h : LegalFreq f) (s : State) :
    countOf (setFreq (BitVec.ofNat 20 f) s) = bandCount f := by
  rw [countOf, setFreq_freq, toNat_ofNat_of_legalFreq h]

/-! ## Regenerate -/

/-- `andThen` asks of its second part only what it answers from the next states of the first. -/
theorem andThen_congr {o : Host.Outcome State Fault Refusal} {k k' : State → Host.Outcome State Fault Refusal}
    (h : ∀ t, o = .next t → k t = k' t) : andThen o k = andThen o k' := by
  cases o with
  | next t => exact h t rfl
  | fault r => rfl
  | refused r => rfl

theorem regenerate_keeps_streaming {s t : State} (h : regenerate s = .next t) : t.streaming = s.streaming := by
  obtain ⟨w, codes, -, -, rfl⟩ := regenerate_eq_next.1 h
  rfl

/-- A regenerated table is regenerated to itself (R110). -/
theorem regenerate_of_regenerated {s t : State} (h : regenerate s = .next t) : regenerate t = .next t := by
  obtain ⟨w, codes, hw, hcodes, rfl⟩ := regenerate_eq_next.1 h
  exact regenerate_eq_next.2 ⟨w, codes, hw, hcodes, (writeTable_writeTable codes s).symm⟩

/-- What ignores `STREAMING` and follows a regeneration may have `STREAMING` written before both (R112). -/
theorem andThen_regenerate_setStreaming {v : Bool} {k : State → Host.Outcome State Fault Refusal}
    (hk : ∀ t, k (setStreaming v t) = k t) (s : State) :
    andThen (regenerate (setStreaming v s)) k = andThen (regenerate s) k := by
  unfold regenerate
  rw [setStreaming_wave, setStreaming_percent, countOf_setStreaming]
  cases waveformOfCode s.wave with
  | none => rfl
  | some w =>
    dsimp only
    cases synthesize w s.percent.toNat (countOf s) with
    | error r => rfl
    | ok codes => exact hk (writeTable codes s)

/-! ## STOP, SYNTH and START -/

theorem stopIfStreaming_of_streaming {s : State} (h : s.streaming = true) : stopIfStreaming s = emit .stop s := if_pos h

theorem stopIfStreaming_of_idle {s : State} (h : s.streaming = false) : stopIfStreaming s = s := by
  simp [stopIfStreaming, h]

theorem startIfStreaming_of_idle {s : State} (r : Reload) (h : s.streaming = false) : startIfStreaming r s = s := by
  simp [startIfStreaming, h]

/-- START's end, in a block that streams already, is the bracket's. -/
theorem startIfStreaming_of_streaming {s : State} (r : Reload) (h : s.streaming = true) :
    startIfStreaming r s = emit (.start s.tableLen r) (setStreaming true s) := by
  rw [← h]
  exact if_pos h

theorem exec_stop_of_streaming {s : State} (h : s.streaming = true) :
    exec .stop s = .next (setStreaming false (emit .stop s)) := if_pos h

theorem exec_stop_of_idle {s : State} (h : s.streaming = false) : exec .stop s = .next s := by
  simp [exec, execStop, h]

/-- SYNTH outside a stream is a bare regeneration (R145). -/
theorem exec_synth_of_idle {s : State} (h : s.streaming = false) : exec .synth s = regenerate s := by
  calc exec .synth s
      = andThen (regenerate s) fun t => .next (startIfStreaming (timerReloadReg t) t) := by
        rw [exec, execSynth, stopIfStreaming_of_idle h]
    _ = andThen (regenerate s) .next := andThen_congr fun t ht => by
        rw [startIfStreaming_of_idle _ ((regenerate_keeps_streaming ht).trans h)]
    _ = regenerate s := by cases regenerate s <;> rfl

/-- START from a stream just stopped: it writes `STREAMING` itself, so the 0 that STOP wrote is of no effect. -/
theorem exec_start_of_stopped (s : State) :
    exec .start (setStreaming false (emit .stop s)) =
      andThen (regenerate (emit .stop s)) fun t =>
        .next (emit (.start t.tableLen (timerReloadReg t)) (setStreaming true t)) := by
  rw [exec, execStart, stopIfStreaming_of_idle (setStreaming_streaming ..)]
  exact andThen_regenerate_setStreaming (fun _ => rfl) _

/-- A STOP before START changes nothing in a stream: START stops it itself (R146). -/
theorem exec_start_after_stop {s : State} (h : s.streaming = true) :
    exec .start (setStreaming false (emit .stop s)) = exec .start s := by
  rw [exec_start_of_stopped, exec, execStart, stopIfStreaming_of_streaming h]

/-- Outside a stream a SYNTH before START changes nothing: START regenerates itself (R146, R110). -/
theorem execAll_synth_start_of_idle {s : State} (h : s.streaming = false) :
    execAll [.synth, .start] s = exec .start s := by
  rw [execAll, exec_synth_of_idle h, exec, execStart, stopIfStreaming_of_idle h]
  refine andThen_congr fun t ht => ?_
  have hidle : t.streaming = false := (regenerate_keeps_streaming ht).trans h
  rw [execAll, exec, execStart, stopIfStreaming_of_idle hidle, regenerate_of_regenerated ht]
  rfl

/-- The frame of SYNTH. -/
theorem sameOutsideTable_of_synth (s : State) (codes : List Code) (r : Reload) :
    SameOutsideTable s (startIfStreaming r (writeTable codes (stopIfStreaming s))) := by
  constructor <;> simp

/-- The frame of START. -/
theorem sameOutsideTable_of_start (s : State) (codes : List Code) (e : SinkEvent) :
    SameOutsideTable s (emit e (setStreaming true (writeTable codes (stopIfStreaming s)))) := by
  constructor <;> simp

/-! ## Write sets -/

/-- A refresh that leaves the stream on or off as it was has events only in a stream (R148). -/
theorem Refreshed.streaming_of_trace_ne {s t : State} (h : Refreshed s t) (hs : t.streaming = s.streaming)
    (hne : t.trace ≠ s.trace) : s.streaming = true := by
  rw [h.trace_of_streaming_eq hs] at hne
  by_contra hidle
  exact hne (by simp [refreshEvents, hidle])

/-- `ApplyFrequency` changes the table only where the count differs from its length (R127). -/
theorem count_ne_of_applyFrequency_table_ne {s t : State} (h : applyFrequency s = .next t)
    (hne : t.table ≠ s.table ∨ t.tableLen ≠ s.tableLen) : countOf s ≠ s.tableLen.toNat := by
  rcases applyFrequency_eq_next h with ⟨-, rfl⟩ | ⟨hcount, -⟩
  · simp at hne
  · exact hcount

/-! ## The obligations -/

/-- Settles O11: what the saturated value is in each of the four ranges. -/
theorem setpSaturatesThenChecksStep : Obligations.SetpSaturatesThenChecksStep := by
  refine fun p s => ⟨append_eq_or_setWidth (op := 0x02) (by decide) p, fun hlo => ?_, fun hhi => ?_,
    fun hlo hhi hstep => ?_, fun hlo hhi hstep => exec_of_operandRejected (i := .setp p) ⟨hlo, hhi, hstep⟩ s⟩
  · exact exec_setp_of_saturatePercent_eq (q := 10) (by rw [saturatePercent_eq]; omega) rfl s
  · exact exec_setp_of_saturatePercent_eq (q := 90) (by rw [saturatePercent_eq]; omega) rfl s
  · rw [exec_setp_of_saturatePercent_eq (q := p.toNat) (by rw [saturatePercent_eq]; omega) hstep, BitVec.ofNat_toNat]
    rfl

/-- Settles O12: an accepted SETF is `ApplyFrequency` on the frequency just written. -/
theorem setfWritesFreqAndApplies : Obligations.SetfWritesFreqAndApplies := by
  refine ⟨fun f => append_eq_or_setWidth (op := 0x03) (by decide) f,
    fun f s hf => exec_of_operandRejected (i := .setf f) hf s, fun f s w hf hw hp => ?_⟩
  obtain ⟨t, ht⟩ := exec_completes (.setf f) (wave_le_of_waveformOfCode hw) hp
  have happly := exec_setf_of_legal hf s ▸ ht
  obtain ⟨hsame, hstreaming⟩ := sameOutsideTable_of_applyFrequency happly
  have hfreq : t.freq.toNat = f.toNat := by rw [hsame.freq, setFreq_freq, toNat_ofNat_of_legalFreq hf]
  have hcount := countOf_setFreq_of_legalFreq hf s
  refine ⟨t, ht, hfreq, hsame.wave, hsame.percent, hsame.status, hstreaming, hsame.inputs, hsame.delivered,
    fun hne => ?_, fun heq => ?_, ?_⟩
  · rw [← hcount] at hne ⊢
    have hrewritten := tableRewritten_of_applyFrequency (s := setFreq (BitVec.ofNat 20 f.toNat) s) hw happly hne
    exact ⟨hrewritten.len, hrewritten.cells, hrewritten.others⟩
  · have hkept := tableKept_of_applyFrequency happly (hcount.trans heq)
    exact ⟨hkept.len, hkept.cells⟩
  · exact hfreq ▸ (refreshed_applyFrequency happly).of_setFreq.trace_of_streaming_eq hstreaming

/-- Settles O14: SYNTH is a refresh, with the table of the present registers stored in its bracket. -/
theorem synthRegeneratesAndRestreams : Obligations.SynthRegeneratesAndRestreams := by
  refine fun s w hw hp => ⟨rfl, ?_⟩
  obtain ⟨t, ht⟩ := exec_completes .synth (wave_le_of_waveformOfCode hw) hp
  obtain ⟨w', codes, hw', hcodes, rfl⟩ := synth_eq_next ht
  obtain rfl : w = w' := by simpa [hw] using hw'
  have htrace := (refreshed_writeTable (length_of_synthesize hcodes)).trace_of_streaming_eq (by simp)
  refine ⟨_, ht, sameOutsideTable_of_synth s codes _, by simp, ?_, by simpa using htrace⟩
  exact tableRewritten_of_storeAll hcodes (by simp) (by simp)

/-- Settles O15: START is a refresh, with the table of the present registers stored in its bracket. -/
theorem startRegeneratesAndStreams : Obligations.StartRegeneratesAndStreams := by
  refine fun s w hw hp => ⟨rfl, ?_⟩
  obtain ⟨t, ht⟩ := exec_completes .start (wave_le_of_waveformOfCode hw) hp
  obtain ⟨w', codes, hw', hcodes, rfl⟩ := start_eq_next ht
  obtain rfl : w = w' := by simpa [hw] using hw'
  refine ⟨_, ht, sameOutsideTable_of_start s codes _, rfl, ?_, ?_⟩
  · exact tableRewritten_of_storeAll hcodes (by simp) (by simp)
  · rw [length_of_synthesize hcodes]
    simp [countOf, timerReloadReg]

/-- Settles O17: both regenerate after the same `Stop`, and the regenerated state still streams. -/
theorem startWhileStreamingIsSynth : Obligations.StartWhileStreamingIsSynth := fun s hs =>
  andThen_congr fun t ht => by
    have hstreaming : t.streaming = true := by rw [regenerate_keeps_streaming ht, stopIfStreaming_streaming, hs]
    rw [startIfStreaming_of_streaming _ hstreaming]

/-- Settles O18: START makes the SYNTH before it and the STOP before that superfluous, and is SYNTH itself (O17). -/
theorem hostBracketEqualsSynth : Obligations.HostBracketEqualsSynth := fun s hs =>
  calc execAll [.stop, .synth, .start] s
      = execAll [.synth, .start] (setStreaming false (emit .stop s)) := by
        rw [execAll, exec_stop_of_streaming hs, andThen_next]
    _ = exec .start (setStreaming false (emit .stop s)) := execAll_synth_start_of_idle rfl
    _ = exec .start s := exec_start_after_stop hs
    _ = exec .synth s := startWhileStreamingIsSynth s hs

/-- Settles O23, by the cases of what a command can do; in each, the fields that differ are those of the command's row. -/
theorem commandsChangeOnlyTheirWriteSet : Obligations.CommandsChangeOnlyTheirWriteSet := by
  intro i s t h
  rcases exec_eq_next h with ⟨-, rfl⟩ | ⟨w, rfl, hsetw⟩ | ⟨p, rfl, hsetp⟩ | ⟨f, rfl, hsetf⟩ | ⟨rfl, happly⟩ |
    ⟨rfl, w, codes, -, -, rfl⟩ | ⟨rfl, w, codes, -, -, rfl⟩ | ⟨rfl, hstop⟩ | ⟨rfl, rfl⟩
  · simp
  · rcases hsetw with ⟨hw, rfl⟩ | ⟨hw, rfl⟩
    · simp [hw]
    · simp [OperandRejected, hw]
  · rcases hsetp with ⟨hp, rfl⟩ | ⟨hp, rfl⟩
    · simp [hp]
    · simp [hp]
  · rcases hsetf with ⟨hf, happly⟩ | ⟨hf, rfl⟩
    · obtain ⟨hsame, hstreaming⟩ := sameOutsideTable_of_applyFrequency happly
      have htable := count_ne_of_applyFrequency_table_ne happly
      have htrace := (refreshed_applyFrequency happly).streaming_of_trace_ne hstreaming
      rw [countOf_setFreq_of_legalFreq hf] at htable
      simpa [hsame.wave, hsame.percent, hsame.status, hsame.inputs, hsame.delivered, hstreaming, hf]
        using And.intro htable htrace
    · simp [hf]
  · obtain ⟨hsame, hstreaming⟩ := sameOutsideTable_of_applyFrequency happly
    have htable := count_ne_of_applyFrequency_table_ne happly
    have htrace := (refreshed_applyFrequency happly).streaming_of_trace_ne hstreaming
    simpa [hsame.wave, hsame.percent, hsame.freq, hsame.status, hsame.inputs, hsame.delivered, hstreaming, countOf]
      using And.intro htable htrace
  · simp
  · simp
  · rcases hstop with ⟨hs, rfl⟩ | ⟨-, rfl⟩
    · simp [hs]
    · simp
  · simp

/-- Settles O10: the two ranges of SETW's operand. -/
theorem setwWritesWaveOrRejects : Obligations.SetwWritesWaveOrRejects := by
  refine fun w s => ⟨append_eq_or_setWidth (op := 0x01) (by decide) w, fun hw => ?_,
    fun hw => exec_of_operandRejected (i := .setw w) hw s⟩
  rw [exec_setw_of_le hw, BitVec.ofNat_toNat]
  rfl

/-- Settles O16: STOP's two cases. -/
theorem stopEndsStreaming : Obligations.StopEndsStreaming := fun _ =>
  ⟨rfl, exec_stop_of_streaming, exec_stop_of_idle⟩

/-- Settles O19: the decoder refuses the word of a mnemonic without operand whose operand field is not zero (R75). -/
theorem clrstClearsStatusOnly : Obligations.ClrstClearsStatusOnly := by
  refine ⟨fun s => rfl, rfl, fun w s hop harg => ?_⟩
  obtain ⟨e, he⟩ := (exists_decode_eq_error_iff w).2 (.inr ⟨by simp [hop], harg⟩)
  exact takeCommand_of_illegal he s

/-- Settles O20: NOP's meaning and its word, as they are defined. -/
theorem nopChangesNothing : Obligations.NopChangesNothing := ⟨rfl, fun _ => rfl⟩

end Sys2Proof.Machine
end

section
/-! PROOFS. The rejections of 60_exceptions.md, and the idle step.

A rejection sets one bit of `STATUS`: `ILL` at the port (`takeCommand_of_illegal`), `REJ` in the execution of a command
whose operand is refused (`exec_of_operandRejected`). That nothing but these and CLRST writes `STATUS` is a row of the write
sets of R151. -/

namespace Sys2Proof.Machine

open Sys2Proof.Safety

/-- R78, R171: the rejection of an illegal word sets bit 0 of `STATUS`. -/
theorem reject_ill (s : State) : reject .ill s = { s with status := s.status ||| 1 } := rfl

/-- R170, R171: the rejection of an operand sets bit 1 of `STATUS`. -/
theorem reject_rej (s : State) : reject .rej s = { s with status := s.status ||| 2 } := rfl

/-- R151: a command that is neither CLRST nor rejected leaves `STATUS` as it was. -/
theorem exec_keeps_status {i : Instr} {s t : State} (hclrst : i ≠ .clrst) (hrej : ¬OperandRejected i)
    (h : exec i s = .next t) : t.status = s.status := by
  obtain ⟨-, -, -, -, -, -, hstatus, -, -⟩ := commandsChangeOnlyTheirWriteSet i s t h
  by_contra hne
  exact (hstatus hne).elim hclrst hrej

/-- Settles O21: an illegal word is rejected at the port; a legal one is executed, and its command is rejected for its
operand or keeps `STATUS`. -/
theorem rejectionsArePrecise : Obligations.RejectionsArePrecise := by
  refine fun w s => ⟨fun e he => ?_, fun i hi hrej => ?_, fun i t hi hrej hclrst ht => ?_⟩
  · rw [takeCommand_of_illegal he, reject_ill]
  · rw [takeCommand_of_legal hi, exec_of_operandRejected hrej, reject_rej]
  · rw [takeCommand_of_legal hi] at ht
    exact exec_keeps_status hclrst hrej ht

/-- Settles O9: with no move pending, keeping the state is the one thing a step can do. -/
theorem idleStepKeepsState : Obligations.IdleStepKeepsState := fun _ hin => step_eq_next.2 (.inl ⟨hin, rfl⟩)

end Sys2Proof.Machine
end

section
/-! PROOFS. Reset, and the host's duties of 70_reset_and_hazards.md.

A tick writes registers, which leaves the table and the sink alone (`SameTableAndSink`), and then presents SYNTH exactly
where the new table is to be heard: `execAll_synth_if` says once what that last part leaves, in terms of the state before
the tick. Whether the sink runs after a toggle follows from the invariants, which every sequence keeps. -/

namespace Sys2Proof.Machine

open Sys2Proof.Safety

/-! ## The operands of the ticks -/

/-- A waveform code needs no more than its 2 bits of the operand field (R74, R141). -/
theorem exec_setw_ofNat {n : Nat} (h : n ≤ 2) (s : State) :
    exec (.setw (BitVec.ofNat 24 n)) s = .next (setWave (BitVec.ofNat 2 n) s) := by
  have hn : (BitVec.ofNat 24 n).toNat = n := by rw [BitVec.toNat_ofNat, Nat.mod_eq_of_lt (by omega)]
  rw [exec_setw_of_le (by omega), hn]

/-- R210: forward is one step on in the cycle of three, backward two. -/
theorem nextWaveCode_eq (forward : Bool) (s : State) :
    nextWaveCode forward s = (s.wave.toNat + if forward then 1 else 2) % 3 := by
  cases forward <;> rfl

theorem nextWaveCode_le (forward : Bool) (s : State) : nextWaveCode forward s ≤ 2 := by
  rw [nextWaveCode_eq]
  omega

/-- The percent that a tick leaves (R211). -/
def tickedPercent (up : Bool) (p : Nat) : Nat := if up then min 90 (p + 10) else max 10 (p - 10)

theorem tickedPercent_legal (up : Bool) {p : Nat} (hp : LegalPercent p) : LegalPercent (tickedPercent up p) := by
  obtain ⟨hlo, hhi, hmod⟩ := hp
  unfold LegalPercent tickedPercent
  cases up
  · rw [if_neg (by decide)]; omega
  · rw [if_pos rfl]; omega

/-- SETP's saturation is the tick's: at the ends the host sends 0 or 100 (R211, R142). -/
theorem saturatePercent_nextPercent (up : Bool) {s : State} (hp : LegalPercent s.percent.toNat) :
    saturatePercent (nextPercent up s) = tickedPercent up s.percent.toNat := by
  obtain ⟨hlo, hhi, -⟩ := hp
  rw [saturatePercent_eq]
  unfold nextPercent tickedPercent
  cases up
  · rw [if_neg (by decide), if_neg (by decide)]; omega
  · rw [if_pos rfl, if_pos rfl]; omega

theorem exec_setp_nextPercent (up : Bool) {s : State} (hp : LegalPercent s.percent.toNat) :
    exec (.setp (BitVec.ofNat 24 (nextPercent up s))) s =
      .next (setPercent (BitVec.ofNat 7 (tickedPercent up s.percent.toNat)) s) := by
  have hbound : nextPercent up s < 2 ^ 24 := by
    have hpercent := s.percent.isLt
    unfold nextPercent
    split <;> omega
  obtain ⟨-, -, hmod⟩ := tickedPercent_legal up hp
  refine exec_setp_of_saturatePercent_eq ?_ hmod s
  rw [BitVec.toNat_ofNat, Nat.mod_eq_of_lt hbound, saturatePercent_nextPercent up hp]

/-- The 7 bits of `PERCENT` hold every legal percent (R22). -/
theorem toNat_ofNat_of_legalPercent {p : Nat} (h : LegalPercent p) : (BitVec.ofNat 7 p).toNat = p := by
  obtain ⟨-, hhi, -⟩ := h
  rw [BitVec.toNat_ofNat, Nat.mod_eq_of_lt (by omega)]

/-! ## Sequences of commands -/

theorem execAll_cons_of_next {i : Instr} {s t : State} (h : exec i s = .next t) (l : List Instr) :
    execAll (i :: l) s = execAll l t := by
  rw [execAll, h, andThen_next]

theorem execAll_singleton (i : Instr) (s : State) : execAll [i] s = exec i s := by
  rw [execAll]
  cases exec i s <;> rfl

/-- R210, R211: the end of a tick. From a state `u` in which registers of `s` have been rewritten, SYNTH where the block
streams brings the table up to date and re-streams it; no command leaves the table and the trace of `s`. -/
theorem execAll_synth_if {s u : State} {w : Waveform} {b : Bool} (hsame : SameTableAndSink s u)
    (hw : waveformOfCode u.wave = some w) (hp : LegalPercent u.percent.toNat) (hb : b = true → s.streaming = true) :
    ∃ t, execAll (if b then [.synth] else []) u = .next t ∧ SameOutsideTable u t ∧ t.streaming = s.streaming ∧
      (b = true → TableRewritten w u.percent.toNat (bandCount s.freq.toNat) s t) ∧
      (b = false → TableKept s t) ∧ t.trace = s.trace ++ refreshEvents b s.freq.toNat := by
  cases b with
  | false =>
    refine ⟨u, rfl, ⟨rfl, rfl, rfl, rfl, rfl, rfl⟩, hsame.streaming, fun h => absurd h (by decide), fun _ => ?_, ?_⟩
    · exact ⟨hsame.tableLen, fun i => by rw [hsame.table]⟩
    · simp [refreshEvents, hsame.trace]
  | true =>
    obtain ⟨-, t, ht, hout, hstreaming, htable, htrace⟩ := synthRegeneratesAndRestreams u w hw hp
    rw [hsame.freq] at htable htrace
    refine ⟨t, (execAll_singleton ..).trans ht, hout, hstreaming.trans hsame.streaming, fun _ => ?_,
      fun h => absurd h (by decide), ?_⟩
    · exact ⟨htable.len, htable.cells, fun i hi => by rw [htable.others i hi, hsame.table]⟩
    · rw [htrace, hsame.trace, hsame.streaming, hb rfl]

/-! ## When a percent tick is heard -/

/-- R211's condition: a stream of a square or a ramp. -/
theorem percentTick_synth_of_shaped {s : State} {w : Waveform} (hw : waveformOfCode s.wave = some w) (hne : w ≠ .sine)
    (hs : s.streaming = true) : (s.streaming && (s.wave == 1 || s.wave == 2)) = true := by
  rw [hs, waveformOfCode_some hw]
  cases w with
  | sine => exact absurd rfl hne
  | square => rfl
  | ramp => rfl

theorem percentTick_no_synth {s : State} (h : s.wave = 0 ∨ s.streaming = false) :
    (s.streaming && (s.wave == 1 || s.wave == 2)) = false := by
  rcases h with hsine | hidle
  · simp [hsine]
  · simp [hidle]

/-! ## The toggle -/

/-- I6 and I7: the sink runs exactly while the block streams. -/
theorem sink_runs_iff_streaming {s : State} (h : Inv s) : (sinkAfter s.trace).isSome = s.streaming :=
  (refreshable_of_inv h).sink

/-- R213: STOP from a stream, START from none. -/
theorem transmitToggle_next {s : State} (h : Inv s) :
    ∃ i t, transmitToggle s = [i] ∧ exec i s = .next t ∧ t.streaming = !s.streaming ∧ SameOutsideTable s t := by
  cases hs : s.streaming with
  | true =>
    exact ⟨.stop, _, by simp [transmitToggle, hs], exec_stop_of_streaming hs, rfl, rfl, rfl, rfl, rfl, rfl, rfl⟩
  | false =>
    obtain ⟨w, hw⟩ := waveformOfCode_legal h.params.wave
    obtain ⟨-, t, ht, hout, hstreaming, -⟩ := startRegeneratesAndStreams s w hw h.params.percent
    exact ⟨.start, t, by simp [transmitToggle, hs], ht, hstreaming, hout⟩

/-! ## The obligations -/

/-- Settles O53: after SETW and SETP the registers are those of R210, and the rest of the tick is `execAll_synth_if`. -/
theorem waveformTickCarriesOut : Obligations.WaveformTickCarriesOut := by
  intro s forward _
  have hle := nextWaveCode_le forward s
  have hcode : (BitVec.ofNat 2 (nextWaveCode forward s)).toNat = nextWaveCode forward s := by
    rw [BitVec.toNat_ofNat, Nat.mod_eq_of_lt (by omega)]
  obtain ⟨w, hw⟩ := waveformOfCode_legal (hcode.trans_le hle)
  have hlegal : LegalPercent 50 := by unfold LegalPercent; decide
  obtain ⟨t, ht, hout, hstreaming, hrewritten, hkept, htrace⟩ :=
    execAll_synth_if (s := s) (u := setPercent 50 (setWave (BitVec.ofNat 2 (nextWaveCode forward s)) s))
      ⟨rfl, rfl, rfl, rfl, rfl⟩ hw hlegal (b := s.streaming) id
  refine ⟨t, w, ?_, by rw [hout.wave]; exact hw, ?_, hout.percent, hout.freq, hstreaming, hout.status, hrewritten, hkept,
    htrace⟩
  · have hsetp := exec_setp_of_saturatePercent_eq (p := 50) (q := 50) rfl rfl
    exact (execAll_cons_of_next (exec_setw_ofNat hle s) _).trans ((execAll_cons_of_next (hsetp _) _).trans ht)
  · rw [hout.wave, setPercent_wave, setWave_wave, hcode, nextWaveCode_eq]

/-- Settles O54: after SETP the percent is that of R211, and the rest of the tick is `execAll_synth_if`. -/
theorem percentTickCarriesOut : Obligations.PercentTickCarriesOut := by
  intro s up h
  have hlegal := tickedPercent_legal up h.params.percent
  have hticked : (setPercent (BitVec.ofNat 7 (tickedPercent up s.percent.toNat)) s).percent.toNat =
      tickedPercent up s.percent.toNat := toNat_ofNat_of_legalPercent hlegal
  obtain ⟨w, hw⟩ := waveformOfCode_legal h.params.wave
  obtain ⟨t, ht, hout, hstreaming, hrewritten, hkept, htrace⟩ :=
    execAll_synth_if (s := s) (u := setPercent (BitVec.ofNat 7 (tickedPercent up s.percent.toNat)) s)
      ⟨rfl, rfl, rfl, rfl, rfl⟩ hw (by rwa [hticked]) (b := s.streaming && (s.wave == 1 || s.wave == 2))
      fun hb => (Bool.and_eq_true_iff.1 hb).1
  refine ⟨t, (execAll_cons_of_next (exec_setp_nextPercent up h.params.percent) _).trans ht, hout.wave, ?_, hout.freq,
    hstreaming, hout.status, fun w' hw' hne hs => ?_, fun hquiet => ?_⟩
  · rw [hout.percent]
    exact hticked
  · obtain rfl : w = w' := by simpa [hw] using hw'
    have hsynth := percentTick_synth_of_shaped hw hne hs
    rw [hsynth] at htrace
    exact ⟨by rw [hout.percent]; exact hrewritten hsynth, htrace⟩
  · have hnone := percentTick_no_synth hquiet
    rw [hnone] at htrace
    exact ⟨hkept hnone, by simpa [refreshEvents] using htrace⟩

/-- Settles O46: the pending reset is served, and keeps the moves after it. -/
theorem resetFromAnyState : Obligations.ResetFromAnyState := fun _ _ hin => step_of_inputs hin

/-- Settles O55: the toggle is one command, and the command keeps the invariants. -/
theorem transmitToggleCarriesOut : Obligations.TransmitToggleCarriesOut := by
  intro s h
  obtain ⟨i, t, htoggle, ht, hstreaming, hout⟩ := transmitToggle_next h
  refine ⟨t, ?_, hstreaming, sink_runs_iff_streaming (exec_keeps_inv h ht), hout⟩
  rw [htoggle, execAll_singleton, ht]

end Sys2Proof.Machine
end
